-- ==== Sys2Proof/Word.lean ====
section
/-! DEFINITION. The value types of the frame engine (00_scope.md R7): a byte is an unsigned 0..255, a word16 an unsigned 0..65535, a byte sequence a list of bytes of any length. Lengths and indices are plain natural numbers: index arithmetic never wraps. -/

namespace Sys2Proof

/-- A byte, 0..255 (R7). -/
abbrev Byte := BitVec 8

/-- A word16, 0..65535 (R7). -/
abbrev Word16 := BitVec 16

/-- A byte sequence, element 0 first (R8). -/
abbrev Bytes := List Byte

end Sys2Proof
end

