-- ==== Sys2Proof/Config.lean ====
section
/-! DEFINITION. The parameters of 00_scope.md R6: what is fixed when the block is built. They are configuration, never state, and no command can change one. The fixed ones are named constants; the decided ones that R6 lets a reader override (`CRC_INIT`, `CRC_XOROUT`) and the open one (`RB_CAP`) are fields of `Config`, so that a claim can be made for every choice of them. `BUS_BINDING` (R6, D2) is left open too: the model takes a command as an opcode byte with typed operands (R67), above any binding (notes/assumptions/2.md). -/

namespace Sys2Proof

/-- `RB_CAP`, the RawBuffer's capacity (R6, R41): `∞`, or a natural number of bytes that is at least
`MAX_FRAME = 260`. `finite extra` is the capacity `260 + extra`, so an inadmissible capacity cannot be written. -/
inductive RbCap where
  /-- `∞`: the source's unbounded software buffer. -/
  | unbounded
  /-- The finite capacity `260 + extra` bytes. -/
  | finite (extra : Nat)
deriving DecidableEq, Repr, Inhabited

/-- The parameters of R6 that are not fixed. -/
structure Config where
  /-- `CRC_INIT`: the CRC's initial value (decided by D1, may be overridden). -/
  crcInit : Word16
  /-- `CRC_XOROUT`: what the CRC is XORed with at the end (decided by D1, may be overridden). -/
  crcXorOut : Word16
  /-- `RB_CAP`: the RawBuffer's capacity (open, D10). -/
  rbCap : RbCap
deriving DecidableEq, Repr

namespace Config

/-- `SOF`, the small-frame start marker (R6). -/
abbrev sof : Byte := 0x02#8

/-- `EOF`, the trailer marker (R6). -/
abbrev eof : Byte := 0x03#8

/-- `MAX_PAYLOAD`, the longest payload in bytes (R6). -/
abbrev maxPayload : Nat := 255

/-- `OVERHEAD`, the bytes a frame adds to its payload: SOF, length, two of CRC, EOF (R6). -/
abbrev overhead : Nat := 5

/-- `MAX_FRAME = MAX_PAYLOAD + OVERHEAD` (R6). -/
abbrev maxFrame : Nat := maxPayload + overhead

/-- `CRC_POLY`, processed most significant bit first (R6, R100). -/
abbrev crcPoly : Word16 := 0x1021#16

/-- `RB_CAP` of the engine: OPEN in the spec (R6, R41, D10), so a constant with no value to be known; a claim about
the engine holds for every admitted capacity. DESIGN CHOICE, safe, log entry 3. -/
opaque openRbCap : RbCap

/-- The engine's own parameters: `CRC_INIT = CRC_XOROUT = 0x0000` as decision D1 sets them (R6; PRESUMED by the
spec, unsafe, log entry 6), `RB_CAP` open. -/
def wvfe : Config where
  crcInit := 0x0000#16
  crcXorOut := 0x0000#16
  rbCap := openRbCap

end Config
end Sys2Proof
end

