-- ==== Sys2Proof/Syntax.lean ====
section
/-! DEFINITION. The command set WVFE-1 as typed data (30_encoding.md R67, R69): one constructor of `Instr` per row of the command map, and the command as the host issues it, one opcode byte and the operands that come with it. -/

namespace Sys2Proof

/-- The frame-mode tag (R29, R65): `Large` is represented and never implemented. -/
inductive FrameMode where
  | small
  | large
deriving DecidableEq, Repr

/-- One operand as the host hands it over: the three operand kinds of R67. -/
inductive Operand where
  | byte (b : Byte)
  | seq (s : Bytes)
  | word16 (c : Word16)
deriving DecidableEq, Repr

/-- A command as the host issues it (R67): one opcode byte followed by operands, not yet known to be legal. -/
structure Command where
  opcode : Byte
  operands : List Operand
deriving DecidableEq, Repr

/-- The operand formats of R67. -/
inductive Format where
  /-- No operand. -/
  | N
  /-- One byte. -/
  | B
  /-- One byte sequence of any length. -/
  | S
  /-- One byte sequence and one word16. -/
  | SV
deriving DecidableEq, Repr

/-- The commands, one constructor per row of spec/opcode_table.json (R69). -/
inductive Instr where
  /-- `CRC.INIT`, opcode 0x10 (R103). -/
  | crcInit
  /-- `CRC.UPDATE b`, opcode 0x11 (R104). -/
  | crcUpdate (b : Byte)
  /-- `CRC.READ`, opcode 0x12 (R105). -/
  | crcRead
  /-- `CRC.COMPUTE s`, opcode 0x13 (R106). -/
  | crcCompute (s : Bytes)
  /-- `FRM.ENCODE.S p` (0x20) and `FRM.ENCODE.L p` (0x21) (R120). -/
  | frmEncode (m : FrameMode) (p : Bytes)
  /-- `FRM.DECODE cand`, opcode 0x22 (R123). -/
  | frmDecode (cand : Bytes)
  /-- `FRM.VALIDATE p, c`, opcode 0x23 (R125). -/
  | frmValidate (p : Bytes) (c : Word16)
  /-- `RA.APPEND c`, opcode 0x30 (R140). -/
  | raAppend (c : Bytes)
  /-- `RA.EXTRACT`, opcode 0x31 (R142). -/
  | raExtract
  /-- `RA.RESET`, opcode 0x32 (R150). -/
  | raReset
deriving DecidableEq, Repr

end Sys2Proof
end

