-- ==== Sys2Proof/WellFormed.lean ====
section
/-! DEFINITION. Which issued commands are well formed (30_encoding.md R67, R69, R71): a legal opcode, with the operands its format lists. Every term of `Instr` is well formed by its type ("a typed model cannot spell such a command", R71): sequences may have any length (R70), and the 255-byte limit of `FRM.ENCODE` is an error status of the command, not a matter of form (R120). -/

namespace Sys2Proof

/-- The format of each legal opcode, from the "format" column of R69; nothing for the 245 illegal ones (R71). -/
def formatOf (opcode : Byte) : Option Format :=
  match opcode.toNat with
  | 0x10 => some .N
  | 0x11 => some .B
  | 0x12 => some .N
  | 0x13 => some .S
  | 0x20 => some .S
  | 0x21 => some .S
  | 0x22 => some .S
  | 0x23 => some .SV
  | 0x30 => some .S
  | 0x31 => some .N
  | 0x32 => some .N
  | _ => none

/-- Whether the operands are those of the format, no more and no fewer (R67; DEDUCED, log entry 9). -/
def Format.admits : Format → List Operand → Bool
  | .N, [] => true
  | .B, [.byte _] => true
  | .S, [.seq _] => true
  | .SV, [.seq _, .word16 _] => true
  | _, _ => false

/-- A well-formed command: a legal opcode (R69) whose operands match its format (R67, R71). -/
def Command.wellFormed (c : Command) : Bool :=
  match formatOf c.opcode with
  | some f => f.admits c.operands
  | none => false

end Sys2Proof
end

