-- ==== Sys2Proof/Decode.lean ====
section
/-! DEFINITION. The command decoder and encoder (30_encoding.md R67 to R71). The opcode byte is matched against the mask and pattern rows of R69; `FRM.ENCODE`'s mode is bit 0 of the opcode (R68). Decoding is total: any opcode byte with any operands is an instruction or is rejected by name. -/

namespace Sys2Proof

/-- Why a command is rejected. Both are answered with status `IllegalCommand` and the opcode byte (R71, R171). -/
inductive DecodeError where
  /-- The opcode is outside the map of R69. -/
  | illegalOpcode (opcode : Byte)
  /-- The opcode is legal and the operands do not match its format. -/
  | operandMismatch (opcode : Byte)
deriving DecidableEq, Repr

/-- The rows of R69 by name. -/
inductive Operation where
  | crcInit | crcUpdate | crcRead | crcCompute
  | frmEncode | frmDecode | frmValidate
  | raAppend | raExtract | raReset
deriving DecidableEq, Repr

/-- One row of the command map: an opcode belongs to it when, under `mask`, it equals `pattern`. -/
structure OpRow where
  pattern : Byte
  mask : Byte
  operation : Operation
deriving DecidableEq, Repr

/-- The complete command map, row for row (R69). -/
def opTable : List OpRow :=
  [ ⟨0x10#8, 0xFF#8, .crcInit⟩,
    ⟨0x11#8, 0xFF#8, .crcUpdate⟩,
    ⟨0x12#8, 0xFF#8, .crcRead⟩,
    ⟨0x13#8, 0xFF#8, .crcCompute⟩,
    ⟨0x20#8, 0xFE#8, .frmEncode⟩,
    ⟨0x22#8, 0xFF#8, .frmDecode⟩,
    ⟨0x23#8, 0xFF#8, .frmValidate⟩,
    ⟨0x30#8, 0xFF#8, .raAppend⟩,
    ⟨0x31#8, 0xFF#8, .raExtract⟩,
    ⟨0x32#8, 0xFF#8, .raReset⟩ ]

/-- Whether an opcode byte belongs to a row. -/
def OpRow.covers (r : OpRow) (opcode : Byte) : Bool :=
  opcode &&& r.mask == r.pattern

/-- The operation an opcode names, if it is in the map (R69, R71). -/
def operationOf (opcode : Byte) : Option Operation :=
  (opTable.find? (·.covers opcode)).map (·.operation)

/-- The mode field `m = op[0]` of `FRM.ENCODE`: 0 is `Small`, 1 is `Large` (R68). -/
def modeOfOpcode (opcode : Byte) : FrameMode :=
  if opcode.getLsbD 0 then .large else .small

/-- The operands assembled into the operation's instruction (R70), when they are of its format. -/
def assemble (o : Operation) (opcode : Byte) (operands : List Operand) : Option Instr :=
  match o, operands with
  | .crcInit, [] => some .crcInit
  | .crcUpdate, [.byte b] => some (.crcUpdate b)
  | .crcRead, [] => some .crcRead
  | .crcCompute, [.seq s] => some (.crcCompute s)
  | .frmEncode, [.seq p] => some (.frmEncode (modeOfOpcode opcode) p)
  | .frmDecode, [.seq cand] => some (.frmDecode cand)
  | .frmValidate, [.seq p, .word16 c] => some (.frmValidate p c)
  | .raAppend, [.seq c] => some (.raAppend c)
  | .raExtract, [] => some .raExtract
  | .raReset, [] => some .raReset
  | _, _ => none

/-- The decoder. An illegal opcode is detected first (R177); then operands that do not match the format (R71). -/
def decode (c : Command) : Except DecodeError Instr :=
  match operationOf c.opcode with
  | none => .error (.illegalOpcode c.opcode)
  | some o =>
    match assemble o c.opcode c.operands with
    | none => .error (.operandMismatch c.opcode)
    | some i => .ok i

/-- The opcode byte of each mode of `FRM.ENCODE`, `0010000m` (R68, R69). -/
def encodeOpcode : FrameMode → Byte
  | .small => 0x20#8
  | .large => 0x21#8

/-- The encoder: the opcode byte of R69 and the operands in the order of R67. -/
def encode : Instr → Command
  | .crcInit => ⟨0x10#8, []⟩
  | .crcUpdate b => ⟨0x11#8, [.byte b]⟩
  | .crcRead => ⟨0x12#8, []⟩
  | .crcCompute s => ⟨0x13#8, [.seq s]⟩
  | .frmEncode m p => ⟨encodeOpcode m, [.seq p]⟩
  | .frmDecode cand => ⟨0x22#8, [.seq cand]⟩
  | .frmValidate p c => ⟨0x23#8, [.seq p, .word16 c]⟩
  | .raAppend c => ⟨0x30#8, [.seq c]⟩
  | .raExtract => ⟨0x31#8, []⟩
  | .raReset => ⟨0x32#8, []⟩

/-- Operands of zeros in a format: the byte 0x00, the empty sequence, the word16 0x0000. -/
def Format.zeroOperands : Format → List Operand
  | .N => []
  | .B => [.byte 0x00#8]
  | .S => [.seq []]
  | .SV => [.seq [], .word16 0x0000#16]

/-- The command an opcode byte makes with operands of zeros; an illegal opcode comes with none.
DESIGN CHOICE, safe, log entry 2. -/
def zeroOperandCommand (opcode : Byte) : Command :=
  ⟨opcode, ((formatOf opcode).map Format.zeroOperands).getD []⟩

/-- The opcode-table word `w`, decoded. Every row of the table is one opcode byte (R67), so a word of another
width names no row; the operands, which the table gives no bits, are zeros. -/
def decodeTableWord (nbits w : Nat) : Option Instr :=
  if nbits = 8 then
    match decode (zeroOperandCommand (BitVec.ofNat 8 w)) with
    | .ok i => some i
    | .error _ => none
  else none

end Sys2Proof
end

