-- ==== Sys2Proof/Machine/Operands.lean ====
section
/-! DEFINITION. The operand and sequence notation of 00_scope.md R8 and R9: slices, elements, the halves of a word16 and their assembly. Byte order on the wire is decided here once: big-endian, high byte first (20_memory.md R44). -/

namespace Sys2Proof.Machine

/-- `s[a:b]`, elements `a .. b-1` (R8). -/
def slice (s : Bytes) (a b : Nat) : Bytes :=
  (s.take b).drop a

/-- `s[k]` (R8). Every use is guarded so that `k < len(s)`: the zero past the end is never read. -/
def byteAt (s : Bytes) (k : Nat) : Byte :=
  s.getD k 0

/-- `hi(v) = v[15:8]` (R9). -/
def hi (v : Word16) : Byte :=
  v.extractLsb' 8 8

/-- `lo(v) = v[7:0]` (R9). -/
def lo (v : Word16) : Byte :=
  v.extractLsb' 0 8

/-- `zext_16(b)`: a byte zero-extended to 16 bits (R9). -/
def zext16 (b : Byte) : Word16 :=
  b.setWidth 16

/-- `be16(a, b) = (a << 8) | b`: a word16 from two bytes, high byte first (R9, R44). -/
def be16 (a b : Byte) : Word16 :=
  (zext16 a <<< 8) ||| zext16 b

end Sys2Proof.Machine
end

