-- ==== Sys2Proof/Machine/Response.lean ====
section
/-! DEFINITION. The values a command returns (10_state.md R29, 60_exceptions.md R170): frames, results, errors with their information values, responses. -/

namespace Sys2Proof.Machine

/-- The `Frame` value of R29, a transient value inside a response, never state (R28). -/
structure Frame where
  mode : FrameMode
  payload : Bytes
  crc : Word16
deriving DecidableEq, Repr

/-- The result kinds of the commands' own rules (R67). -/
inductive Result where
  /-- No result (`CRC.INIT`, `CRC.UPDATE`, `RA.APPEND`, `RA.RESET`). -/
  | none
  /-- A word16 (`CRC.READ`, `CRC.COMPUTE`). -/
  | word16 (c : Word16)
  /-- A byte sequence (`FRM.ENCODE`). -/
  | bytes (s : Bytes)
  /-- A payload and its CRC (`FRM.DECODE`). -/
  | payloadCrc (p : Bytes) (c : Word16)
  /-- A Boolean (`FRM.VALIDATE`). -/
  | bool (b : Bool)
  /-- Frames, oldest first (`RA.EXTRACT`). -/
  | frames (fs : List Frame)
deriving DecidableEq, Repr

/-- The errors of R170 with their information values. -/
inductive Error where
  /-- `FRM.ENCODE.L`: no information value. -/
  | unsupportedVariant
  /-- `FRM.ENCODE.S` of a payload over 255 bytes: its length. -/
  | lengthOverflow (len : Nat)
  /-- `FRM.DECODE` of a malformed candidate: its length. -/
  | malformedCandidate (len : Nat)
  /-- `RA.APPEND` of a chunk that does not fit: the length it would have made. -/
  | bufferOverflow (len : Nat)
  /-- An illegal opcode or mismatched operands: the opcode byte. -/
  | illegalCommand (opcode : Byte)
deriving DecidableEq, Repr

/-- The information value in place of a result (R170). -/
inductive Info where
  | none
  | length (n : Nat)
  | opcode (b : Byte)
deriving DecidableEq, Repr

/-- What a command returns: status `OK` with a result, or an error status with its information value (R170). -/
inductive Response where
  | ok (r : Result)
  | error (e : Error)
deriving DecidableEq, Repr

end Sys2Proof.Machine
end

