-- ==== Sys2Proof/Machine/State.lean ====
section
/-! DEFINITION. The state of the machine. The engine's architectural state is R20's record, `crc_reg` and `rbuf`, and nothing else. Beside it stand the two sides of its one command port as plain data, the model's own fields and never read by a command: what the host has yet to hand over, and the responses it has been given (DESIGN CHOICE, safe, log entry 1). -/

namespace Sys2Proof.Machine

/-- What the outside world can do to the engine, one at a time, in order (R5, R48, R50). -/
inductive PortInput where
  /-- The host issues a command. -/
  | command (c : Command)
  /-- The block is reset (R200). -/
  | blockReset
deriving DecidableEq, Repr

/-- No command and no state makes the engine stop: "a model needs no fault or stuck outcome for any admitted
command" (R176), and every error of R170 is a response. So there is no fault to name. DEDUCED, unsafe if the hardware can stop, log entry 11. -/
inductive Fault where
deriving DecidableEq, Repr

/-- Refusals: only the one the interface asks for, and no arm of `exec` answers with it. -/
inductive Refusal where
  /-- An instruction whose meaning is not written yet, by mnemonic: raised only by an arm of `exec`, safe. No
  instruction is left in it. -/
  | notModelled (mnemonic : String)
deriving DecidableEq, Repr

/-- The architectural state, the record `S` of R20: "nothing else persists from one command to the next". -/
structure Engine where
  /-- `crc_reg`, the running CRC of the streaming interface (R21). -/
  crcReg : Word16
  /-- `rbuf`, the RawBuffer: element 0 is address 0, the oldest byte (R22, R40). -/
  rbuf : Bytes
deriving DecidableEq, Repr

/-- The state of the machine: the engine's `crcReg` and `rbuf`, and the two sides of its command port. -/
structure State extends Engine where
  /-- The model's own: the host's inputs not yet taken, the next one first. -/
  input : List PortInput
  /-- The model's own: the responses returned so far, oldest first. -/
  responses : List Response
deriving DecidableEq, Repr

/-- The engine right after block reset (R200): `crc_reg = CRC_INIT`, `rbuf` empty. -/
def Engine.reset (cfg : Config) : Engine where
  crcReg := cfg.crcInit
  rbuf := []

/-- The machine right after block reset (R200), its port empty. -/
def State.reset : State where
  toEngine := Engine.reset Config.wvfe
  input := []
  responses := []

end Sys2Proof.Machine
end

