-- ==== Sys2Proof/Machine/Ops.lean ====
section
/-! DEFINITION. The named operations every meaning is built from: the register and RawBuffer primitives of 00_scope.md R10, the capacity check of R41, returning `OK`, raising an error (the engine's only exception, R174), and what the port does around a command. -/

namespace Sys2Proof.Machine

/-- Whether a capacity holds `n` bytes (R41). Every admitted capacity holds `MAX_FRAME` bytes, so the open
parameter is asked only about more. -/
def capHolds (cap : RbCap) (n : Nat) : Bool :=
  decide (n ≤ Config.maxFrame) ||
    match cap with
    | .unbounded => true
    | .finite extra => decide (n ≤ Config.maxFrame + extra)

/-- The form every RawBuffer has: `len(rbuf) ≤ RB_CAP` (R22). A list of bytes has no other form to keep: position
`k` of the list is address `k` and there are no other addresses (R40). DESIGN CHOICE, safe, log entry 7. -/
def Memory.wf (cap : RbCap) (rbuf : Bytes) : Bool :=
  capHolds cap rbuf.length

/-- The address space as (address, byte) pairs, addresses `0 .. len(rbuf)-1` rising (R40). -/
def Memory.cells (rbuf : Bytes) : List Host.Cell :=
  rbuf.mapIdx (fun a b => (a, b))

/-- One byte of the RawBuffer; nothing at an address that does not exist (R40). -/
def Memory.read (rbuf : Bytes) (a : Nat) : Option Byte :=
  rbuf[a]?

/-- `BufAppend(c)` sets `rbuf <- rbuf ++ c` (R10). -/
def bufAppend (rbuf c : Bytes) : Bytes :=
  rbuf ++ c

/-- `BufDrop(n)` sets `rbuf <- rbuf[n:len(rbuf)]` (R10). -/
def bufDrop (rbuf : Bytes) (n : Nat) : Bytes :=
  slice rbuf n rbuf.length

/-- `BufClear()` sets `rbuf <- []` (R10). -/
def bufClear : Bytes :=
  []

/-- `MemRead(k, n)` is `rbuf[k:k+n]` (R10). -/
def memRead (rbuf : Bytes) (k n : Nat) : Bytes :=
  slice rbuf k (k + n)

/-- `crc_reg <- v` (R10). -/
def Engine.setCrcReg (e : Engine) (v : Word16) : Engine :=
  { e with crcReg := v }

/-- `rbuf <- b` (R10). -/
def Engine.setRbuf (e : Engine) (b : Bytes) : Engine :=
  { e with rbuf := b }

/-- `return (OK, r)` (R10): the command ends, the state as it has been written. -/
def returnOk (r : Result) (e : Engine) : Engine × Response :=
  (e, .ok r)

/-- `raise E(info)` (R10, R174): taking an error. Nothing is saved, no mode changes and there is no vector: the
error is the command's response, all state stays as it was before the command, and the engine is ready for the next
command at once. There is nothing to return from (R175). -/
def raise (err : Error) (e : Engine) : Engine × Response :=
  (e, .error err)

/-- A command performed on the machine: the engine is as the command leaves it and the response goes to the host,
after the earlier ones (R5: one command, one response). -/
def commit (done : Engine × Response) (s : State) : Host.Outcome State Fault Refusal :=
  .next { s with toEngine := done.1, responses := s.responses ++ [done.2] }

/-- The next input the host hands over, and the state with it taken. -/
def takeInput (s : State) : Option (PortInput × State) :=
  match s.input with
  | [] => none
  | x :: rest => some (x, { s with input := rest })

/-- No input: the engine keeps its state (R184). DESIGN CHOICE, safe, log entry 4. -/
def idle (s : State) : Host.Outcome State Fault Refusal :=
  .next s

/-- Block reset (R200, R201): `crc_reg <- CRC_INIT`, `rbuf <- []`. It is no command and has no response, and the port
goes on with its next input at once. DESIGN CHOICE, unsafe for what a reset discards, log entry 5. -/
def blockReset (s : State) : Host.Outcome State Fault Refusal :=
  .next { s with toEngine := Engine.reset Config.wvfe }

/-- The error a command that does not decode is answered with: `IllegalCommand` and the opcode byte, whichever way
it fails to decode (R71, R171). -/
def illegalCommandError : DecodeError → Error
  | .illegalOpcode op => .illegalCommand op
  | .operandMismatch op => .illegalCommand op

/-- A command that does not decode changes neither `crc_reg` nor `rbuf` (R171). -/
def rejectCommand (err : DecodeError) (s : State) : Host.Outcome State Fault Refusal :=
  commit (raise (illegalCommandError err) s.toEngine) s

end Sys2Proof.Machine
end

