-- ==== Sys2Proof/Machine/Crc.lean ====
section
/-! DEFINITION. The CRC generator (40_crc.md): the pure function CRC16-CCITT in the spec's three forms of its byte step, and the four commands over `crc_reg`. The parameters `CRC_INIT` and `CRC_XOROUT` are arguments of the function, so that a claim which depends on them says so. A command is first its effect on the engine under given parameters (`perform…`, the step function of R20), then that effect under the engine's own (`exec…`). -/

namespace Sys2Proof.Machine

/-- One of the eight shifts of R100: left by one, and the polynomial added when the bit shifted out is 1. -/
def crcShift (c : Word16) : Word16 :=
  if c.getLsbD 15 then (c <<< 1) ^^^ Config.crcPoly else c <<< 1

/-- `n` shifts. -/
def crcShifts : Nat → Word16 → Word16
  | 0, c => c
  | n + 1, c => crcShifts n (crcShift c)

/-- `CrcStep(c, b)`: the byte into the high half, then eight shifts (R100). -/
def crcStep (c : Word16) (b : Byte) : Word16 :=
  crcShifts 8 (c ^^^ (zext16 b <<< 8))

/-- One bit of the bit-serial form of the same step: a 16-bit LFSR fed with the data bit `d` (R100). -/
def crcSerialBit (c : Word16) (d : Bool) : Word16 :=
  if c.getLsbD 15 ^^ d then (c <<< 1) ^^^ Config.crcPoly else c <<< 1

/-- The bits of a byte from `b[7]` down to `b[0]`, the order the LFSR takes them in (R100). -/
def bitsMsbFirst (b : Byte) : List Bool :=
  [7, 6, 5, 4, 3, 2, 1, 0].map b.getLsbD

/-- The bit-serial form of `CrcStep` (R100). -/
def crcStepSerial (c : Word16) (b : Byte) : Word16 :=
  (bitsMsbFirst b).foldl crcSerialBit c

/-- The entry `T[n] = CrcStep(0x0000, n)` of the 256-entry table (R102). -/
def crcTable (n : Byte) : Word16 :=
  crcStep 0x0000#16 n

/-- The table form of `CrcStep` (R102). -/
def crcStepTable (c : Word16) (b : Byte) : Word16 :=
  crcTable (hi c ^^^ b) ^^^ (c <<< 8)

/-- The byte step folded over a sequence, from a given value, with no final XOR: what a run of `CRC.UPDATE`s does. -/
def crcFold (c : Word16) (p : Bytes) : Word16 :=
  p.foldl crcStep c

/-- `CRC16(p)`, for a sequence of any length (R101). -/
def crc16 (cfg : Config) (p : Bytes) : Word16 :=
  crcFold cfg.crcInit p ^^^ cfg.crcXorOut

/-- `CRC.INIT`: `crc_reg <- CRC_INIT` (R103). -/
def performCrcInit (cfg : Config) (e : Engine) : Engine × Response :=
  returnOk .none (e.setCrcReg cfg.crcInit)

/-- `CRC.UPDATE b`: `crc_reg <- CrcStep(crc_reg, b)`, with no final XOR (R104). -/
def performCrcUpdate (b : Byte) (e : Engine) : Engine × Response :=
  returnOk .none (e.setCrcReg (crcStep e.crcReg b))

/-- `CRC.READ`: returns `crc_reg ^ CRC_XOROUT` and writes nothing (R105). -/
def performCrcRead (cfg : Config) (e : Engine) : Engine × Response :=
  returnOk (.word16 (e.crcReg ^^^ cfg.crcXorOut)) e

/-- `CRC.COMPUTE s`: returns `CRC16(s)` of a sequence of any length and touches no state (R106). -/
def performCrcCompute (cfg : Config) (p : Bytes) (e : Engine) : Engine × Response :=
  returnOk (.word16 (crc16 cfg p)) e

/-- `CRC.INIT` on the machine (R103). -/
def execCrcInit (s : State) : Host.Outcome State Fault Refusal :=
  commit (performCrcInit Config.wvfe s.toEngine) s

/-- `CRC.UPDATE b` on the machine (R104). -/
def execCrcUpdate (b : Byte) (s : State) : Host.Outcome State Fault Refusal :=
  commit (performCrcUpdate b s.toEngine) s

/-- `CRC.READ` on the machine (R105). -/
def execCrcRead (s : State) : Host.Outcome State Fault Refusal :=
  commit (performCrcRead Config.wvfe s.toEngine) s

/-- `CRC.COMPUTE s` on the machine (R106). -/
def execCrcCompute (p : Bytes) (s : State) : Host.Outcome State Fault Refusal :=
  commit (performCrcCompute Config.wvfe p s.toEngine) s

end Sys2Proof.Machine
end

