-- ==== Sys2Proof/Machine/Framer.lean ====
section
/-! DEFINITION. The framer (41_framer.md) over the wire frame of 30_encoding.md: the pure functions that build, split and check a frame, and the three commands. None of them reads or writes `crc_reg` or `rbuf`. -/

namespace Sys2Proof.Machine

/-- The wire frame of a payload, `[0x02, len(p)] ++ p ++ [hi(c), lo(c), 0x03]` (R60, R120). It is a frame when
`len(p) ≤ 255`; `FRM.ENCODE` builds no other. -/
def encodeFrame (cfg : Config) (p : Bytes) : Bytes :=
  [Config.sof, BitVec.ofNat 8 p.length] ++ p ++ [hi (crc16 cfg p), lo (crc16 cfg p), Config.eof]

/-- `L`, the length byte of a candidate, as a natural number (R70). -/
def frameLength (cand : Bytes) : Nat :=
  (byteAt cand 1).toNat

/-- `Decode(cand)`: the payload and the CRC of a bounded candidate, or nothing where the rule raises
`MalformedCandidate`. It looks at neither the trailer nor the CRC's value (R122). -/
def decodeCandidate (cand : Bytes) : Option (Bytes × Word16) :=
  if cand.length < 2 then none
  else if byteAt cand 0 ≠ Config.sof then none
  else if cand.length < frameLength cand + 4 then none
  else
    some (slice cand 2 (2 + frameLength cand),
      be16 (byteAt cand (2 + frameLength cand)) (byteAt cand (3 + frameLength cand)))

/-- `Validate(p, c)`: `CRC16(p) = c`, with no length check (R124). -/
def validate (cfg : Config) (p : Bytes) (c : Word16) : Bool :=
  crc16 cfg p == c

/-- `IsFrame(s)`: the byte sequence is a valid frame, nothing before it and nothing after it (R61). -/
def isFrame (cfg : Config) (s : Bytes) : Bool :=
  decide (5 ≤ s.length)
    && byteAt s 0 == Config.sof
    && s.length == frameLength s + 5
    && be16 (byteAt s (2 + frameLength s)) (byteAt s (3 + frameLength s))
        == crc16 cfg (slice s 2 (2 + frameLength s))
    && byteAt s (4 + frameLength s) == Config.eof

/-- The `Frame` value of a wire frame: `Small`, its payload, the CRC it carries (R29, R148). -/
def frameOf (s : Bytes) : Frame where
  mode := .small
  payload := slice s 2 (2 + frameLength s)
  crc := be16 (byteAt s (2 + frameLength s)) (byteAt s (3 + frameLength s))

/-- `FRM.ENCODE.S p` and `FRM.ENCODE.L p`: the mode is checked first, then the length (R120, R177). -/
def performFrmEncode (cfg : Config) (m : FrameMode) (p : Bytes) (e : Engine) : Engine × Response :=
  match m with
  | .large => raise .unsupportedVariant e
  | .small =>
    if p.length > Config.maxPayload then raise (.lengthOverflow p.length) e
    else returnOk (.bytes (encodeFrame cfg p)) e

/-- `FRM.DECODE cand` (R123). -/
def performFrmDecode (cand : Bytes) (e : Engine) : Engine × Response :=
  match decodeCandidate cand with
  | none => raise (.malformedCandidate cand.length) e
  | some (p, c) => returnOk (.payloadCrc p c) e

/-- `FRM.VALIDATE p, c`: a mismatch is the result false, never an error (R125). -/
def performFrmValidate (cfg : Config) (p : Bytes) (c : Word16) (e : Engine) : Engine × Response :=
  returnOk (.bool (validate cfg p c)) e

/-- `FRM.ENCODE` on the machine, both modes (R120). -/
def execFrmEncode (m : FrameMode) (p : Bytes) (s : State) : Host.Outcome State Fault Refusal :=
  commit (performFrmEncode Config.wvfe m p s.toEngine) s

/-- `FRM.DECODE cand` on the machine (R123). -/
def execFrmDecode (cand : Bytes) (s : State) : Host.Outcome State Fault Refusal :=
  commit (performFrmDecode cand s.toEngine) s

/-- `FRM.VALIDATE p, c` on the machine (R125). -/
def execFrmValidate (p : Bytes) (c : Word16) (s : State) : Host.Outcome State Fault Refusal :=
  commit (performFrmValidate Config.wvfe p c s.toEngine) s

end Sys2Proof.Machine
end

