-- ==== Sys2Proof/Machine/Reassembler.lean ====
section
/-! DEFINITION. The stream reassembler (42_reassembler.md): one pass of `RA.EXTRACT`'s loop, the loop, and the three commands. The loop runs on fuel that R149 shows is enough; `Sys2Proof.Laws.extract_eq` is the loop without fuel. -/

namespace Sys2Proof.Machine

/-- How one pass of the loop of R142 ends, with the RawBuffer it leaves. -/
inductive Pass where
  /-- Steps (a), (c), (d): the command returns. -/
  | stop (rbuf : Bytes)
  /-- Steps (e), (g): the candidate is rejected and the scan goes on (R146). -/
  | reject (rbuf : Bytes)
  /-- Step (f): the candidate is a frame and the scan goes on (R148). -/
  | accept (f : Frame) (rbuf : Bytes)
deriving DecidableEq, Repr

/-- Steps (a) and (b): every byte before the first marker is dropped, all of them when there is no marker (R144). -/
def dropToMarker (rbuf : Bytes) : Bytes :=
  bufDrop rbuf (rbuf.findIdx (· == Config.sof))

/-- Steps (e), (f), (g) on a complete candidate at the front of `rbuf`, whose trailer stands at `trailer`: the
trailer check comes before the CRC check (R145), and a rejection drops exactly the marker (R146). -/
def judgeCandidate (cfg : Config) (rbuf : Bytes) (trailer : Nat) : Pass :=
  if byteAt rbuf trailer ≠ Config.eof then .reject (bufDrop rbuf 1)
  else
    match decodeCandidate (memRead rbuf 0 (trailer + 1)) with
    -- "cannot fail here" (R142)
    | none => .reject (bufDrop rbuf 1)
    | some (p, c) =>
      if validate cfg p c then .accept ⟨.small, p, c⟩ (bufDrop rbuf (trailer + 1))
      else .reject (bufDrop rbuf 1)

/-- One pass on a RawBuffer whose first byte is the marker: steps (c) and (d) wait (R143). -/
def passAtMarker (cfg : Config) (rbuf : Bytes) : Pass :=
  if rbuf.length < 2 then .stop rbuf
  else if frameLength rbuf + 4 + 1 > rbuf.length then .stop rbuf
  else judgeCandidate cfg rbuf (frameLength rbuf + 4)

/-- One pass of the loop of R142. -/
def extractPass (cfg : Config) (rbuf : Bytes) : Pass :=
  match dropToMarker rbuf with
  | [] => .stop bufClear
  | b :: t => passAtMarker cfg (b :: t)

/-- The loop of R142, at most `fuel` passes: the frames found, oldest first, and the RawBuffer left. DEDUCED, safe, log entry 12. -/
def extractLoop (cfg : Config) : Nat → Bytes → List Frame × Bytes
  | 0, rbuf => ([], rbuf)
  | fuel + 1, rbuf =>
    match extractPass cfg rbuf with
    | .stop rest => ([], rest)
    | .reject rest => extractLoop cfg fuel rest
    | .accept f rest => (f :: (extractLoop cfg fuel rest).1, (extractLoop cfg fuel rest).2)

/-- How many passes the loop makes on `rbuf` when it is allowed `fuel` of them, the one that returns among them
(R149). -/
def extractPasses (cfg : Config) : Nat → Bytes → Nat
  | 0, _ => 0
  | fuel + 1, rbuf =>
    match extractPass cfg rbuf with
    | .stop _ => 1
    | .reject rest => extractPasses cfg fuel rest + 1
    | .accept _ rest => extractPasses cfg fuel rest + 1

/-- What `RA.EXTRACT` does to a RawBuffer. A pass that does not return makes it strictly shorter, so
`len(rbuf) + 1` passes are enough (R149). -/
def extract (cfg : Config) (rbuf : Bytes) : List Frame × Bytes :=
  extractLoop cfg (rbuf.length + 1) rbuf

/-- The quiescent invariant `Q(rbuf)` (R24). -/
def quiescent (rbuf : Bytes) : Bool :=
  rbuf.length == 0
    || (byteAt rbuf 0 == Config.sof
        && (rbuf.length == 1 || decide (rbuf.length < frameLength rbuf + 5)))

/-- `RA.APPEND c`: the whole chunk or, when it does not fit, nothing and `BufferOverflow` (R140, R141). -/
def performRaAppend (cfg : Config) (c : Bytes) (e : Engine) : Engine × Response :=
  if capHolds cfg.rbCap (e.rbuf.length + c.length) then
    returnOk .none (e.setRbuf (bufAppend e.rbuf c))
  else raise (.bufferOverflow (e.rbuf.length + c.length)) e

/-- `RA.EXTRACT`: every complete valid frame, oldest first; rejections are not reported (R142, R147) or logged (DESIGN CHOICE, safe, log entry 8). -/
def performRaExtract (cfg : Config) (e : Engine) : Engine × Response :=
  returnOk (.frames (extract cfg e.rbuf).1) (e.setRbuf (extract cfg e.rbuf).2)

/-- `RA.RESET`: `BufClear()`; `crc_reg` is untouched (R150, R201). -/
def performRaReset (e : Engine) : Engine × Response :=
  returnOk .none (e.setRbuf bufClear)

/-- `RA.APPEND c` on the machine (R140). -/
def execRaAppend (c : Bytes) (s : State) : Host.Outcome State Fault Refusal :=
  commit (performRaAppend Config.wvfe c s.toEngine) s

/-- `RA.EXTRACT` on the machine (R142). -/
def execRaExtract (s : State) : Host.Outcome State Fault Refusal :=
  commit (performRaExtract Config.wvfe s.toEngine) s

/-- `RA.RESET` on the machine (R150). -/
def execRaReset (s : State) : Host.Outcome State Fault Refusal :=
  commit (performRaReset s.toEngine) s

end Sys2Proof.Machine
end

