-- ==== Sys2Proof/Machine/Dispatch.lean ====
section
/-! DEFINITION. One arm per command of the map of 30_encoding.md R69. -/

namespace Sys2Proof.Machine

def exec (i : Instr) (s : State) : Host.Outcome State Fault Refusal :=
  match i with
  -- the CRC generator, unit 0x1
  | .crcInit => Sys2Proof.Machine.execCrcInit s
  | .crcUpdate b => Sys2Proof.Machine.execCrcUpdate b s
  | .crcRead => Sys2Proof.Machine.execCrcRead s
  | .crcCompute p => Sys2Proof.Machine.execCrcCompute p s
  -- the framer, unit 0x2
  | .frmEncode m p => Sys2Proof.Machine.execFrmEncode m p s
  | .frmDecode cand => Sys2Proof.Machine.execFrmDecode cand s
  | .frmValidate p c => Sys2Proof.Machine.execFrmValidate p c s
  -- the reassembler, unit 0x3
  | .raAppend c => Sys2Proof.Machine.execRaAppend c s
  | .raExtract => Sys2Proof.Machine.execRaExtract s
  | .raReset => Sys2Proof.Machine.execRaReset s

end Sys2Proof.Machine
end

