-- ==== Sys2Proof/Machine/Step.lean ====
section
/-! DEFINITION. One step of the machine: the next input of the port is taken and performed whole (00_scope.md R5, 20_memory.md R47, R48). The engine has no program counter and fetches no instructions (10_state.md R25): a program is the list of commands the host issues. -/

namespace Sys2Proof.Machine

/-- One step. A command is decoded first (R177); an illegal one is answered, never stopped on. -/
def step (s : State) : Host.Outcome State Fault Refusal :=
  match takeInput s with
  | none => idle s
  | some (.blockReset, s') => blockReset s'
  | some (.command c, s') =>
    match decode c with
    | .ok i => exec i s'
    | .error e => rejectCommand e s'

/-- The state in which the next command the host issues is the opcode-table word `w`, its operands zeros. -/
def State.withFetchWord (s : State) (_nbits w : Nat) : State :=
  { s with input := .command (zeroOperandCommand (BitVec.ofNat 8 w)) :: s.input }

end Sys2Proof.Machine
end

