-- ==== Sys2Proof/Machine/Flags.lean ====
section
/-! DEFINITION. The engine has no flags or condition codes (10_state.md R26): a command's outcome is reported in its response's status only. Here are the status codes and the parts of a response (60_exceptions.md R170). -/

namespace Sys2Proof.Machine

/-- The code byte of each error status (R170). -/
def Error.code : Error → Byte
  | .unsupportedVariant => 0x01#8
  | .lengthOverflow _ => 0x02#8
  | .malformedCandidate _ => 0x03#8
  | .bufferOverflow _ => 0x04#8
  | .illegalCommand _ => 0x05#8

/-- The information value of each error (R170). -/
def Error.info : Error → Info
  | .unsupportedVariant => .none
  | .lengthOverflow n => .length n
  | .malformedCandidate n => .length n
  | .bufferOverflow n => .length n
  | .illegalCommand op => .opcode op

/-- The one-byte status every response carries: `OK` is 0x00 (R170). -/
def Response.status : Response → Byte
  | .ok _ => 0x00#8
  | .error e => e.code

/-- The result, absent unless the status is `OK` (R67). -/
def Response.result : Response → Option Result
  | .ok r => some r
  | .error _ => none

/-- The information value, present when the status is not `OK` (R170). -/
def Response.info : Response → Option Info
  | .ok _ => none
  | .error e => some e.info

end Sys2Proof.Machine
end

