-- ==== Sys2Proof/Machine/Perform.lean ====
section
/-! DEFINITION. The step function as 10_state.md R20 writes it: "takes S, the parameters of R6 and one command. It returns a new S and a response." It is the machine under any choice of the parameters; `exec` is it under the engine's own (`Sys2Proof.Laws.exec_eq_commit_perform`). -/

namespace Sys2Proof.Machine

/-- One command on the engine under the parameters `cfg` (R20). -/
def perform (cfg : Config) (i : Instr) (e : Engine) : Engine × Response :=
  match i with
  | .crcInit => performCrcInit cfg e
  | .crcUpdate b => performCrcUpdate b e
  | .crcRead => performCrcRead cfg e
  | .crcCompute p => performCrcCompute cfg p e
  | .frmEncode m p => performFrmEncode cfg m p e
  | .frmDecode cand => performFrmDecode cand e
  | .frmValidate p c => performFrmValidate cfg p c e
  | .raAppend c => performRaAppend cfg c e
  | .raExtract => performRaExtract cfg e
  | .raReset => performRaReset e

/-- Commands performed one after the other (R48): the engine they leave and their responses, in order. -/
def performAll (cfg : Config) : List Instr → Engine → Engine × List Response
  | [], e => (e, [])
  | i :: is, e =>
    ((performAll cfg is (perform cfg i e).1).1,
      (perform cfg i e).2 :: (performAll cfg is (perform cfg i e).1).2)

end Sys2Proof.Machine
end

