-- ==== Sys2Proof/Machine/Program.lean ====
section
/-! DEFINITION. What the host writes: the assembler syntax and the two pseudo-instructions of 30_encoding.md R72, and a program as the inputs of the port. -/

namespace Sys2Proof.Machine

/-- A program as the host hands it over: its commands, encoded, in order. -/
def issue (is : List Instr) : List PortInput :=
  is.map (fun i => .command (encode i))

/-- `RA.FEED {c}` expands to `RA.APPEND {c}` then `RA.EXTRACT` (R72). -/
def raFeed (c : Bytes) : List Instr :=
  [.raAppend c, .raExtract]

/-- `CRC.STREAM {b0 … bn-1}` expands to `CRC.INIT`, the `CRC.UPDATE`s in order, `CRC.READ` (R72). -/
def crcStream (bs : Bytes) : List Instr :=
  [.crcInit] ++ bs.map .crcUpdate ++ [.crcRead]

/-- One hexadecimal digit, as the spec writes them (capital letters). -/
def hexDigit (n : Nat) : Char :=
  if n < 10 then Char.ofNat (48 + n) else Char.ofNat (55 + n)

/-- A hex pair `HH`. -/
def hexPair (b : Byte) : List Char :=
  [hexDigit (b.toNat / 16), hexDigit (b.toNat % 16)]

/-- A byte operand, `0xHH` (R72). -/
def asmByte (b : Byte) : List Char :=
  ['0', 'x'] ++ hexPair b

/-- A word16 operand, `0xHHHH` (R72). -/
def asmWord16 (c : Word16) : List Char :=
  ['0', 'x'] ++ hexPair (hi c) ++ hexPair (lo c)

/-- A byte sequence operand: hex pairs separated by spaces, in braces (R72). The braces are the characters 0x7B
and 0x7D. -/
def asmSeq (s : Bytes) : List Char :=
  [Char.ofNat 0x7B] ++ List.intercalate [' '] (s.map hexPair) ++ [Char.ofNat 0x7D]

/-- The mnemonic, with `FRM.ENCODE`'s mode as its suffix (R72). -/
def asmMnemonic : Instr → String
  | .crcInit => "CRC.INIT"
  | .crcUpdate _ => "CRC.UPDATE"
  | .crcRead => "CRC.READ"
  | .crcCompute _ => "CRC.COMPUTE"
  | .frmEncode .small _ => "FRM.ENCODE.S"
  | .frmEncode .large _ => "FRM.ENCODE.L"
  | .frmDecode _ => "FRM.DECODE"
  | .frmValidate _ _ => "FRM.VALIDATE"
  | .raAppend _ => "RA.APPEND"
  | .raExtract => "RA.EXTRACT"
  | .raReset => "RA.RESET"

/-- The operands, `operands` of `MNEMONIC operands` (R72). -/
def asmOperands : Instr → List Char
  | .crcInit => []
  | .crcUpdate b => asmByte b
  | .crcRead => []
  | .crcCompute s => asmSeq s
  | .frmEncode _ p => asmSeq p
  | .frmDecode cand => asmSeq cand
  | .frmValidate p c => asmSeq p ++ [',', ' '] ++ asmWord16 c
  | .raAppend c => asmSeq c
  | .raExtract => []
  | .raReset => []

/-- A command as it is written in assembler, `MNEMONIC operands` (R72). -/
def asm (i : Instr) : List Char :=
  match asmOperands i with
  | [] => (asmMnemonic i).toList
  | ops => (asmMnemonic i).toList ++ [' '] ++ ops

end Sys2Proof.Machine
end

