-- ==== Sys2Proof/Safety.lean ====
section
/-! DEFINITION. The terms claims are made in: what a command answered, what an invariant of the machine is, what a sound response is, and where spurious markers stand. No run of this machine stops (60_exceptions.md R176), so a safe run is one that keeps the invariant and gives sound responses only. -/

namespace Sys2Proof.Machine

/-- `exec i s` completes and the response it gives is `r`. -/
def Responds (i : Instr) (s : State) (r : Response) : Prop :=
  ∃ t, exec i s = .next t ∧ t.responses = s.responses ++ [r]

/-- The invariant of the architectural state: `len(rbuf) ≤ RB_CAP` (R22). -/
def State.Inv (s : State) : Prop :=
  Memory.wf Config.wvfe.rbCap s.rbuf = true

/-- A Frame as the engine returns it: `Small`, at most 255 bytes of payload, its CRC the payload's (R29). -/
def Frame.wf (cfg : Config) (f : Frame) : Bool :=
  decide (f.mode = .small) && decide (f.payload.length ≤ 255) && decide (f.crc = crc16 cfg f.payload)

/-- A response the rules allow: every Frame in it is well formed (R29), and encoded bytes are a valid frame (R121). -/
def Response.sound (cfg : Config) : Response → Bool
  | .ok (.frames fs) => fs.all (Frame.wf cfg)
  | .ok (.bytes f) => isFrame cfg f
  | .ok (.none) => true
  | .ok (.word16 _) => true
  | .ok (.payloadCrc _ _) => true
  | .ok (.bool _) => true
  | .error _ => true

/-- Every response given so far is sound. -/
def State.Sound (s : State) : Prop :=
  ∀ r ∈ s.responses, r.sound Config.wvfe = true

/-- `n` bytes are within a capacity: `RB_CAP = ∞`, or `n ≤ RB_CAP` (R140, R141). -/
def WithinCapacity (cap : RbCap) (n : Nat) : Prop :=
  match cap with
  | .unbounded => True
  | .finite extra => n ≤ 260 + extra

/-- What `RA.EXTRACT` returns for a valid frame `f`, as R152 and R153 write it: `Frame(Small, p, CRC16(p))`. -/
def expectedFrame (cfg : Config) (f : Bytes) : Frame :=
  ⟨.small, (frameOf f).payload, crc16 cfg (frameOf f).payload⟩

/-- The conditions of R154 on the markers of `g` in the buffer `g ++ rest`: each one's whole candidate span is
present, and is no valid frame. -/
def SpuriousMarkersResolved (cfg : Config) (g rest : Bytes) : Prop :=
  ∀ j, j < g.length → byteAt g j = 0x02#8 →
    j + 1 < (g ++ rest).length ∧
    j + (byteAt (g ++ rest) (j + 1)).toNat + 5 ≤ (g ++ rest).length ∧
    isFrame cfg (slice (g ++ rest) j (j + (byteAt (g ++ rest) (j + 1)).toNat + 5)) = false

/-- The sequence that differs from `p` in exactly bit `k` of byte `j` (R108). -/
def flipBit (p : Bytes) (j k : Nat) : Bytes :=
  p.modify j (· ^^^ (1#8 <<< k))

end Sys2Proof.Machine
end

