-- ==== Sys2Proof/Certificates/Slice0/Obligations.lean ====
section
/-! DEFINITION. The statements for the provers, from the numbered rules of spec/. Statements over `perform` and the pure functions hold for every choice of the parameters (92_eei_decisions.md D1: claims about framing hold for every one); statements over `exec` and `step` are about the engine itself, its `RB_CAP` open. Numbers here are written as the rules write them, not by the model's names for them. -/

open Sys2Proof Sys2Proof.Machine

/-! ## Encoding -/

/-- R69, the complete command map: each opcode with operands of its format, for all operands. -/
def Obligations.CommandMapDecodes : Prop :=
  decode ⟨0x10#8, []⟩ = .ok .crcInit ∧
  (∀ b, decode ⟨0x11#8, [.byte b]⟩ = .ok (.crcUpdate b)) ∧
  decode ⟨0x12#8, []⟩ = .ok .crcRead ∧
  (∀ s, decode ⟨0x13#8, [.seq s]⟩ = .ok (.crcCompute s)) ∧
  (∀ p, decode ⟨0x20#8, [.seq p]⟩ = .ok (.frmEncode .small p)) ∧
  (∀ p, decode ⟨0x21#8, [.seq p]⟩ = .ok (.frmEncode .large p)) ∧
  (∀ s, decode ⟨0x22#8, [.seq s]⟩ = .ok (.frmDecode s)) ∧
  (∀ p c, decode ⟨0x23#8, [.seq p, .word16 c]⟩ = .ok (.frmValidate p c)) ∧
  (∀ c, decode ⟨0x30#8, [.seq c]⟩ = .ok (.raAppend c)) ∧
  decode ⟨0x31#8, []⟩ = .ok .raExtract ∧
  decode ⟨0x32#8, []⟩ = .ok .raReset

/-- R67 to R71: decoding and encoding agree in both directions, for every command and every instruction, every
operand at every value. Each instruction is written by exactly one command. That a command with surplus or swapped
operands is no spelling of an instruction is the model's reading of R71, log entry 9 (DEDUCED). -/
def Obligations.DecodeAndEncodeAgree : Prop :=
  ∀ (c : Command) (i : Instr), decode c = .ok i ↔ c = encode i

/-- R71: the illegal opcodes are exactly 0x00–0x0F, 0x14–0x1F, 0x24–0x2F and 0x33–0xFF, 245 of them, whatever the
operands. -/
def Obligations.IllegalOpcodesAreOutsideTheMap : Prop :=
  (∀ (op : Byte) (operands : List Operand),
    decode ⟨op, operands⟩ = .error (.illegalOpcode op) ↔
      (op.toNat ≤ 0x0F ∨ (0x14 ≤ op.toNat ∧ op.toNat ≤ 0x1F) ∨
        (0x24 ≤ op.toNat ∧ op.toNat ≤ 0x2F) ∨ 0x33 ≤ op.toNat)) ∧
  ((List.range 256).filter (fun n => (operationOf (BitVec.ofNat 8 n)).isNone)).length = 245

/-- R67, R71: the commands that decode are exactly those with a legal opcode and the operands of its format. That
surplus or swapped operands do not match a format is the model's reading, log entry 9 (DEDUCED). -/
def Obligations.WellFormedCommandsDecode : Prop :=
  ∀ c : Command, c.wellFormed = true ↔ ∃ i, decode c = .ok i

/-- R9, R44: a word16 is split and assembled high byte first. -/
def Obligations.WordsAreBigEndian : Prop :=
  (∀ a b : Byte, (be16 a b).toNat = 256 * a.toNat + b.toNat) ∧
  (∀ v : Word16, be16 (hi v) (lo v) = v ∧ (hi v).toNat = v.toNat / 256 ∧ (lo v).toNat = v.toNat % 256)

/-! ## The step, reset, errors -/

/-- R5, R48: when the next input is a command that decodes to `i`, the step is `exec i` at the state with that input
taken. -/
def Obligations.StepPerformsTheDecodedCommand : Prop :=
  ∀ (s : State) (c : Command) (rest : List PortInput) (i : Instr),
    s.input = .command c :: rest → decode c = .ok i → step s = exec i { s with input := rest }

/-- R171: an opcode outside the map, or operands that do not match the format, is answered `IllegalCommand` with the
opcode byte, and neither `crc_reg` nor `rbuf` changes. That surplus or swapped operands do not match, as missing ones
do not, is the model's reading of R71, log entry 9 (DEDUCED, unsafe for a claim about such commands). -/
def Obligations.IllegalCommandsAreAnswered : Prop :=
  ∀ (s : State) (c : Command) (rest : List PortInput),
    s.input = .command c :: rest → c.wellFormed = false →
      step s = .next { s with
        input := rest
        responses := s.responses ++ [.error (.illegalCommand c.opcode)] }

/-- R200: what block reset leaves, at the start and at any later time, and that the next input is then taken. That
block reset is an input between two commands, and that the inputs after it are kept, is the model's choice, log
entry 5 (DESIGN CHOICE, unsafe for what a reset discards). -/
def Obligations.BlockResetLeaves : Prop :=
  State.reset.crcReg = 0x0000#16 ∧ State.reset.rbuf = [] ∧ quiescent State.reset.rbuf = true ∧
  ∀ (s : State) (rest : List PortInput), s.input = .blockReset :: rest →
    ∃ t, step s = .next t ∧ t.crcReg = 0x0000#16 ∧ t.rbuf = [] ∧ quiescent t.rbuf = true ∧ t.input = rest

/-- The model's choice of log entries 4 and 5, resting on R184 and R200: with no input the machine keeps its state,
and a block reset leaves the host's record of responses alone. -/
def Obligations.PortWithoutACommand : Prop :=
  (∀ s : State, s.input = [] → step s = .next s) ∧
  (∀ (s : State) (rest : List PortInput), s.input = .blockReset :: rest →
    step s = .next { crcReg := 0x0000#16, rbuf := [], input := rest, responses := s.responses })

/-- R176: whatever the state and the command, the step completes with exactly one response. -/
def Obligations.EveryCommandIsTotal : Prop :=
  (∀ (i : Instr) (s : State), ∃ t r, exec i s = .next t ∧ t.input = s.input ∧
    t.responses = s.responses ++ [r]) ∧
  (∀ (s : State) (c : Command) (rest : List PortInput), s.input = .command c :: rest →
    ∃ t r, step s = .next t ∧ t.input = rest ∧ t.responses = s.responses ++ [r])

/-- R174: a command with a status other than `OK` has changed no state; the engine is ready for the next command. -/
def Obligations.ErrorsChangeNoState : Prop :=
  ∀ (s t : State) (c : Command) (rest : List PortInput) (r : Response),
    s.input = .command c :: rest → step s = .next t → t.responses = s.responses ++ [r] →
      r.status ≠ 0x00#8 → t.crcReg = s.crcReg ∧ t.rbuf = s.rbuf ∧ t.input = rest

/-- R170, R171, R177: which command raises which error, on what condition and with which information value; no other
status is ever returned. That every command which is no instruction's encoding is illegal, one with surplus or swapped
operands among them, is the model's reading of R71, log entry 9 (DEDUCED). Whether any chunk overflows is open with
`RB_CAP`, log entry 3. -/
def Obligations.ErrorConditions : Prop :=
  ∀ (s t : State) (c : Command) (rest : List PortInput) (r : Response),
    s.input = .command c :: rest → step s = .next t → t.responses = s.responses ++ [r] →
      (r.status = 0x01#8 ↔ ∃ p, c = encode (.frmEncode .large p)) ∧
      (r.status = 0x02#8 ↔ ∃ p, c = encode (.frmEncode .small p) ∧ 255 < p.length) ∧
      (r.status = 0x03#8 ↔ ∃ cand, c = encode (.frmDecode cand) ∧
        (cand.length < 2 ∨ byteAt cand 0 ≠ 0x02#8 ∨ cand.length < (byteAt cand 1).toNat + 4)) ∧
      (r.status = 0x04#8 ↔ ∃ k, c = encode (.raAppend k) ∧
        ¬ WithinCapacity Config.wvfe.rbCap (s.rbuf.length + k.length)) ∧
      (r.status = 0x05#8 ↔ c.wellFormed = false) ∧
      r.status.toNat ≤ 0x05 ∧
      (r.status = 0x01#8 → r.info = some .none) ∧
      (∀ p, c = encode (.frmEncode .small p) → r.status = 0x02#8 → r.info = some (.length p.length)) ∧
      (∀ p, c = encode (.frmDecode p) → r.status = 0x03#8 → r.info = some (.length p.length)) ∧
      (∀ p, c = encode (.raAppend p) →
        r = .ok .none ∨ (r.status = 0x04#8 ∧ r.info = some (.length (s.rbuf.length + p.length)))) ∧
      (r.status = 0x05#8 → r.info = some (.opcode c.opcode))

/-- R20: the new `S` and the response are a function of the old `S` and the command: nothing else the machine holds,
the host's earlier inputs and responses among them, reaches them. -/
def Obligations.NothingElsePersists : Prop :=
  ∀ (i : Instr) (s s' t t' : State),
    s.toEngine = s'.toEngine → exec i s = .next t → exec i s' = .next t' →
      t.toEngine = t'.toEngine ∧
      ∃ r, t.responses = s.responses ++ [r] ∧ t'.responses = s'.responses ++ [r]

/-- R48: commands are performed one at a time in the order the host issues them, each from the state the one before
left; the machine's run of a program is `performAll` of it under the engine's parameters. -/
def Obligations.RunPerformsTheProgramInOrder : Prop :=
  ∀ (is : List Instr) (rest : List PortInput) (s : State), s.input = issue is ++ rest →
    Host.Core.run Sys2Proof.core is.length s =
      .next (State.mk (performAll Config.wvfe is s.toEngine).1 rest
        (s.responses ++ (performAll Config.wvfe is s.toEngine).2))

/-! ## The CRC generator -/

/-- R103 with its frame: `crc_reg` becomes `CRC_INIT`, 0x0000 under D1; all else is as before but the response. -/
def Obligations.CrcInitResult : Prop :=
  ∀ s : State, exec .crcInit s =
    .next { s with crcReg := 0x0000#16, responses := s.responses ++ [.ok .none] }

/-- R104 with its frame: `crc_reg` becomes `CrcStep(crc_reg, b)`, eight shifts of R100 on the register XORed with
the byte in its high half. The rule's corner case and example follow. -/
def Obligations.CrcUpdateResult : Prop :=
  (∀ (b : Byte) (s : State), exec (.crcUpdate b) s =
    .next { s with
      crcReg := crcShift (crcShift (crcShift (crcShift (crcShift (crcShift (crcShift (crcShift
        (s.crcReg ^^^ (b.setWidth 16 <<< 8)))))))))
      responses := s.responses ++ [.ok .none] }) ∧
  crcStep 0x0000#16 0x00#8 = 0x0000#16 ∧ crcStep 0x0000#16 0x31#8 = 0x2672#16

/-- R105 with its frame: the result is `crc_reg ^ CRC_XOROUT`; no state is written. Right after `CRC.INIT` it is
`CRC_INIT ^ CRC_XOROUT`, which is `CRC16([])`. The rule's example, nine bytes, follows. -/
def Obligations.CrcReadResult : Prop :=
  (∀ s : State, exec .crcRead s =
    .next { s with responses := s.responses ++ [.ok (.word16 (s.crcReg ^^^ 0x0000#16))] }) ∧
  (∀ (cfg : Config) (e : Engine), (performAll cfg [.crcInit, .crcRead] e).2 =
    [.ok .none, .ok (.word16 (cfg.crcInit ^^^ cfg.crcXorOut))]) ∧
  (∀ cfg : Config, crc16 cfg [] = cfg.crcInit ^^^ cfg.crcXorOut) ∧
  crcFold Config.wvfe.crcInit
    [0x31#8, 0x32#8, 0x33#8, 0x34#8, 0x35#8, 0x36#8, 0x37#8, 0x38#8, 0x39#8] = 0x31C3#16

/-- R106 with its frame: `CRC.COMPUTE` returns `CRC16(s)` of any sequence and writes no state. The rule's corner
cases and example follow. -/
def Obligations.CrcComputeResult : Prop :=
  (∀ (p : Bytes) (s : State), exec (.crcCompute p) s =
    .next { s with responses := s.responses ++ [.ok (.word16 (crc16 Config.wvfe p))] }) ∧
  crc16 Config.wvfe [] = 0x0000#16 ∧ crc16 Config.wvfe [0x00#8] = 0x0000#16 ∧
  crc16 Config.wvfe [0x00#8, 0x00#8] = 0x0000#16 ∧ crc16 Config.wvfe [0x04#8] = 0x4084#16

/-- R100: the byte form of the step, its shift and its eight repetitions as the rule writes them, and the bit-serial
LFSR form, which agrees with it for every register and byte. -/
def Obligations.BitSerialFormAgrees : Prop :=
  (∀ c : Word16, crcShift c = if c.getLsbD 15 = true then (c <<< 1) ^^^ 0x1021#16 else c <<< 1) ∧
  (∀ (c : Word16) (b : Byte), crcStep c b = crcShift^[8] (c ^^^ (b.setWidth 16 <<< 8))) ∧
  (∀ (c : Word16) (b : Byte), crcStepSerial c b =
    [b.getLsbD 7, b.getLsbD 6, b.getLsbD 5, b.getLsbD 4, b.getLsbD 3, b.getLsbD 2, b.getLsbD 1,
      b.getLsbD 0].foldl
      (fun (c : Word16) d => if (c.getLsbD 15 ^^ d) = true then (c <<< 1) ^^^ 0x1021#16 else c <<< 1) c) ∧
  (∀ (c : Word16) (b : Byte), crcStepSerial c b = crcStep c b)

/-- R102: the table form of the byte step agrees for every register and byte, and the entries the rule lists. -/
def Obligations.TableFormAgrees : Prop :=
  (∀ (c : Word16) (b : Byte), crcStepTable c b = crcStep c b) ∧
  crcTable 0x00#8 = 0x0000#16 ∧ crcTable 0x01#8 = 0x1021#16 ∧ crcTable 0x02#8 = 0x2042#16 ∧
  crcTable 0x10#8 = 0x1231#16 ∧ crcTable 0x80#8 = 0x9188#16 ∧ crcTable 0xFF#8 = 0x1EF0#16

/-- R107: `CRC.INIT`, the `CRC.UPDATE`s of a sequence and `CRC.READ`, from any engine and under any parameters,
return `CRC16(s)`, which is also what `CRC.COMPUTE s` returns. -/
def Obligations.StreamingAgreesWithCompute : Prop :=
  ∀ (cfg : Config) (s : Bytes) (e : Engine),
    (performAll cfg (crcStream s) e).2 =
      List.replicate (s.length + 1) (.ok .none) ++ [.ok (.word16 (crc16 cfg s))] ∧
    (performAll cfg (crcStream s) e).1.rbuf = e.rbuf ∧
    (perform cfg (.crcCompute s) e).2 = .ok (.word16 (crc16 cfg s))

/-- R203: the first streaming CRC after block reset is right without `CRC.INIT`. -/
def Obligations.FirstStreamAfterReset : Prop :=
  ∀ (cfg : Config) (s : Bytes),
    (performAll cfg (s.map .crcUpdate ++ [.crcRead]) (Engine.reset cfg)).2.getLast? =
      some (.ok (.word16 (crc16 cfg s)))

/-- R108: one flipped bit of the payload changes its CRC, one flipped bit of the CRC no longer matches, and
`FRM.VALIDATE` returns false on both. -/
def Obligations.SingleBitErrorsAreDetected : Prop :=
  (∀ (cfg : Config) (p : Bytes) (j k : Nat), j < p.length → k < 8 →
    crc16 cfg (flipBit p j k) ≠ crc16 cfg p) ∧
  (∀ (cfg : Config) (p : Bytes) (c : Word16) (k : Nat), k < 16 →
    crc16 cfg p = c → crc16 cfg p ≠ c ^^^ (1#16 <<< k)) ∧
  (∀ (p : Bytes) (c : Word16) (j k : Nat) (s : State), crc16 Config.wvfe p = c → j < p.length → k < 8 →
    exec (.frmValidate (flipBit p j k) c) s =
      .next { s with responses := s.responses ++ [.ok (.bool false)] }) ∧
  (∀ (p : Bytes) (c : Word16) (k : Nat) (s : State), crc16 Config.wvfe p = c → k < 16 →
    exec (.frmValidate p (c ^^^ (1#16 <<< k))) s =
      .next { s with responses := s.responses ++ [.ok (.bool false)] })

/-- R109: check value, residue, leading zeros and all-zero payloads when both parameters are 0x0000; the check value
and the empty CRC when `CRC_INIT = 0xFFFF`. -/
def Obligations.CrcPropertiesUnderD1 : Prop :=
  (∀ cfg : Config, cfg.crcInit = 0x0000#16 → cfg.crcXorOut = 0x0000#16 →
    crc16 cfg [0x31#8, 0x32#8, 0x33#8, 0x34#8, 0x35#8, 0x36#8, 0x37#8, 0x38#8, 0x39#8] = 0x31C3#16 ∧
    (∀ p : Bytes, crc16 cfg (p ++ [hi (crc16 cfg p), lo (crc16 cfg p)]) = 0x0000#16) ∧
    (∀ p : Bytes, crc16 cfg ([0x00#8] ++ p) = crc16 cfg p) ∧
    (∀ n : Nat, crc16 cfg (List.replicate n 0x00#8) = 0x0000#16)) ∧
  (∀ cfg : Config, cfg.crcInit = 0xFFFF#16 → cfg.crcXorOut = 0x0000#16 →
    crc16 cfg [0x31#8, 0x32#8, 0x33#8, 0x34#8, 0x35#8, 0x36#8, 0x37#8, 0x38#8, 0x39#8] = 0x29B1#16 ∧ crc16 cfg [] = 0xFFFF#16)

/-- R21: `crc_reg` is written by `CRC.INIT` and `CRC.UPDATE` only, and no command but `CRC.READ` lets its value reach
a response or `rbuf`. -/
def Obligations.CrcRegisterWritersAndReaders : Prop :=
  (∀ (i : Instr) (s t : State), exec i s = .next t → i ≠ .crcInit → (∀ b, i ≠ .crcUpdate b) →
    t.crcReg = s.crcReg) ∧
  (∀ (cfg : Config) (i : Instr) (c c' : Word16) (rbuf : Bytes), i ≠ .crcRead →
    (perform cfg i ⟨c, rbuf⟩).2 = (perform cfg i ⟨c', rbuf⟩).2 ∧
    (perform cfg i ⟨c, rbuf⟩).1.rbuf = (perform cfg i ⟨c', rbuf⟩).1.rbuf)

/-! ## The framer -/

/-- R120 with its frame: the three outcomes of `FRM.ENCODE`, the mode checked before the length. The rule's corner
case and example follow. -/
def Obligations.FrmEncodeResult : Prop :=
  (∀ (p : Bytes) (s : State), exec (.frmEncode .large p) s =
    .next { s with responses := s.responses ++ [.error .unsupportedVariant] }) ∧
  (∀ (p : Bytes) (s : State), 255 < p.length → exec (.frmEncode .small p) s =
    .next { s with responses := s.responses ++ [.error (.lengthOverflow p.length)] }) ∧
  (∀ (p : Bytes) (s : State), p.length ≤ 255 → exec (.frmEncode .small p) s =
    .next { s with responses := s.responses ++
      [.ok (.bytes ([0x02#8, BitVec.ofNat 8 p.length] ++ p ++
        [hi (crc16 Config.wvfe p), lo (crc16 Config.wvfe p), 0x03#8]))] }) ∧
  encodeFrame Config.wvfe [] = [0x02#8, 0x00#8, 0x00#8, 0x00#8, 0x03#8] ∧
  encodeFrame Config.wvfe [0x04#8] = [0x02#8, 0x01#8, 0x04#8, 0x40#8, 0x84#8, 0x03#8]

/-- R121: what `FRM.ENCODE.S` returns with `OK` is a valid frame of the right shape. -/
def Obligations.EncodedFrameIsValid : Prop :=
  ∀ (p f : Bytes) (s : State), Responds (.frmEncode .small p) s (.ok (.bytes f)) →
    isFrame Config.wvfe f = true ∧ f.length = p.length + 5 ∧
    (byteAt f 1).toNat = p.length ∧ slice f 2 (2 + p.length) = p

/-- R122, R123 with its frame: a candidate that is too short or does not begin with the marker is malformed; any
other is split into payload and CRC, whatever its CRC, its trailer and the bytes after them. -/
def Obligations.FrmDecodeResult : Prop :=
  (∀ (cand : Bytes) (s : State),
    (cand.length < 2 ∨ cand[0]? ≠ some 0x02#8 ∨ ∃ L, cand[1]? = some L ∧ cand.length < L.toNat + 4) →
    exec (.frmDecode cand) s =
      .next { s with responses := s.responses ++ [.error (.malformedCandidate cand.length)] }) ∧
  (∀ (L h l : Byte) (p rest : Bytes) (s : State), p.length = L.toNat →
    exec (.frmDecode ([0x02#8, L] ++ p ++ [h, l] ++ rest)) s =
      .next { s with responses := s.responses ++ [.ok (.payloadCrc p (be16 h l))] }) ∧
  (∀ cand : Bytes,
    ¬ (cand.length < 2 ∨ cand[0]? ≠ some 0x02#8 ∨ ∃ L, cand[1]? = some L ∧ cand.length < L.toNat + 4) →
    ∃ L h l p rest, p.length = L.toNat ∧ cand = [0x02#8, L] ++ p ++ [h, l] ++ rest)

/-- R124, R125 with its frame: the result is whether `CRC16(p) = c`, for a payload of any length; the status is
always `OK`. The CRCs of the rule's corner cases and example follow. -/
def Obligations.FrmValidateResult : Prop :=
  (∀ (p : Bytes) (c : Word16) (s : State), exec (.frmValidate p c) s =
    .next { s with responses := s.responses ++ [.ok (.bool (decide (crc16 Config.wvfe p = c)))] }) ∧
  crc16 Config.wvfe [] = 0x0000#16 ∧ crc16 Config.wvfe [0x04#8] ≠ 0x8440#16 ∧
  crc16 Config.wvfe [0x31#8, 0x32#8, 0x33#8, 0x34#8, 0x35#8, 0x36#8, 0x37#8, 0x38#8, 0x39#8] = 0x31C3#16

/-- R126: decoding what encoding a payload gives returns the payload and its CRC, and validating succeeds. -/
def Obligations.EncodeDecodeRoundTrip : Prop :=
  ∀ (cfg : Config) (p f : Bytes) (e : Engine), p.length ≤ 255 →
    (perform cfg (.frmEncode .small p) e).2 = .ok (.bytes f) →
      decodeCandidate f = some (p, crc16 cfg p) ∧ validate cfg p (crc16 cfg p) = true

/-- R127: `IsFrame` holds exactly under the reassembler's checks. -/
def Obligations.FrameRecognition : Prop :=
  ∀ (cfg : Config) (s : Bytes), isFrame cfg s = true ↔
    s.length = (byteAt s 1).toNat + 5 ∧
    (∃ p c, decodeCandidate s = some (p, c) ∧ validate cfg p c = true) ∧
    byteAt s (4 + (byteAt s 1).toNat) = 0x03#8

/-- R60, R61: the valid frames are exactly the wire layouts of the payloads of at most 255 bytes. -/
def Obligations.ValidFramesAreTheEncodings : Prop :=
  ∀ (cfg : Config) (s : Bytes), isFrame cfg s = true ↔
    ∃ p : Bytes, p.length ≤ 255 ∧
      s = [0x02#8, BitVec.ofNat 8 p.length] ++ p ++ [hi (crc16 cfg p), lo (crc16 cfg p), 0x03#8]

/-! ## The reassembler -/

/-- R140, R141, for every admitted capacity: the whole chunk at the end, or nothing and `BufferOverflow`. -/
def Obligations.RaAppendAllOrNothing : Prop :=
  ∀ (cfg : Config) (c : Bytes) (e : Engine),
    (WithinCapacity cfg.rbCap (e.rbuf.length + c.length) →
      perform cfg (.raAppend c) e = ({ e with rbuf := e.rbuf ++ c }, .ok .none)) ∧
    (¬ WithinCapacity cfg.rbCap (e.rbuf.length + c.length) →
      perform cfg (.raAppend c) e = (e, .error (.bufferOverflow (e.rbuf.length + c.length))))

/-- R140 on the machine, with its frame: a chunk that makes up to 260 bytes is always added, whatever the open
`RB_CAP`; and every chunk is added whole, or refused with `BufferOverflow`, as `RB_CAP` says. -/
def Obligations.RaAppendResult : Prop :=
  (∀ (c : Bytes) (s : State), s.rbuf.length + c.length ≤ 260 → exec (.raAppend c) s =
    .next { s with rbuf := s.rbuf ++ c, responses := s.responses ++ [.ok .none] }) ∧
  (∀ (c : Bytes) (s : State), exec (.raAppend c) s =
    if capHolds Config.wvfe.rbCap (s.rbuf.length + c.length) = true then
      .next { s with rbuf := s.rbuf ++ c, responses := s.responses ++ [.ok .none] }
    else
      .next { s with
        responses := s.responses ++ [.error (.bufferOverflow (s.rbuf.length + c.length))] }) ∧
  (∀ (cap : RbCap) (n : Nat), capHolds cap n = true ↔ WithinCapacity cap n)

/-- R206: a host that issues `RA.EXTRACT` after every `RA.APPEND` and keeps each chunk to `RB_CAP - 259` bytes never
gets an error, from any quiescent buffer; with `RB_CAP = ∞` no chunk is too long. -/
def Obligations.FedChunksNeverOverflow : Prop :=
  ∀ (cfg : Config) (cs : List Bytes) (e : Engine), quiescent e.rbuf = true →
    (∀ c ∈ cs, WithinCapacity cfg.rbCap (c.length + 259)) →
      ∀ r ∈ (performAll cfg (cs.flatMap raFeed) e).2, r.status = 0x00#8

/-- R142, R147 with its frame: `RA.EXTRACT` writes `rbuf` only, returns frames only, and its status is `OK`. -/
def Obligations.RaExtractResult : Prop :=
  ∀ s : State, exec .raExtract s =
    .next { s with
      rbuf := (extract Config.wvfe s.rbuf).2
      responses := s.responses ++ [.ok (.frames (extract Config.wvfe s.rbuf).1)] }

/-- R142, the loop itself, label by label, with no bound on its passes: these equations determine what `RA.EXTRACT`
returns and leaves, for every RawBuffer; and the command returns and leaves just that, its status `OK`. -/
def Obligations.ExtractFollowsTheLoop : Prop :=
  (∀ (cfg : Config) (e : Engine), perform cfg .raExtract e =
    (⟨e.crcReg, (extract cfg e.rbuf).2⟩, .ok (.frames (extract cfg e.rbuf).1))) ∧
  ∀ cfg : Config,
    -- (a) no marker anywhere
    (∀ rbuf : Bytes, (0x02#8 : Byte) ∉ rbuf → extract cfg rbuf = ([], [])) ∧
    -- (b) the bytes before the first marker are dropped
    (∀ g t : Bytes, (0x02#8 : Byte) ∉ g → extract cfg (g ++ 0x02#8 :: t) = extract cfg (0x02#8 :: t)) ∧
    -- (c) the length byte is not yet here
    extract cfg [0x02#8] = ([], [0x02#8]) ∧
    -- (d) not enough bytes yet
    (∀ (L : Byte) (r : Bytes), (0x02#8 :: L :: r).length < L.toNat + 4 + 1 →
      extract cfg (0x02#8 :: L :: r) = ([], 0x02#8 :: L :: r)) ∧
    -- (e) trailer mismatch
    (∀ (L h l x : Byte) (p rest : Bytes), p.length = L.toNat → x ≠ 0x03#8 →
      extract cfg (0x02#8 :: L :: (p ++ [h, l, x] ++ rest)) =
        extract cfg (L :: (p ++ [h, l, x] ++ rest))) ∧
    -- (f) valid frame
    (∀ (L h l : Byte) (p rest : Bytes), p.length = L.toNat → crc16 cfg p = be16 h l →
      extract cfg (0x02#8 :: L :: (p ++ [h, l, 0x03#8] ++ rest)) =
        (⟨.small, p, be16 h l⟩ :: (extract cfg rest).1, (extract cfg rest).2)) ∧
    -- (g) CRC mismatch
    (∀ (L h l : Byte) (p rest : Bytes), p.length = L.toNat → crc16 cfg p ≠ be16 h l →
      extract cfg (0x02#8 :: L :: (p ++ [h, l, 0x03#8] ++ rest)) =
        extract cfg (L :: (p ++ [h, l, 0x03#8] ++ rest)))

/-- R127, R145: a complete candidate is accepted exactly when its span is a valid frame, in whichever order trailer
and CRC are checked; otherwise the scan resumes one byte past its marker (R146). -/
def Obligations.CandidatesAreJudgedByIsFrame : Prop :=
  ∀ (cfg : Config) (L : Byte) (r : Bytes), L.toNat + 3 ≤ r.length →
    extract cfg (0x02#8 :: L :: r) =
      if isFrame cfg ((0x02#8 :: L :: r).take (L.toNat + 5)) = true then
        (frameOf ((0x02#8 :: L :: r).take (L.toNat + 5)) ::
          (extract cfg ((0x02#8 :: L :: r).drop (L.toNat + 5))).1,
        (extract cfg ((0x02#8 :: L :: r).drop (L.toNat + 5))).2)
      else extract cfg (L :: r)

/-- R151: after every `RA.EXTRACT` the buffer is quiescent and has at most 259 bytes, and a second one returns no
frame and leaves it as it is. -/
def Obligations.ExtractLeavesQuiescent : Prop :=
  ∀ s t : State, exec .raExtract s = .next t →
    quiescent t.rbuf = true ∧ t.rbuf.length ≤ 259 ∧
    exec .raExtract t = .next { t with responses := t.responses ++ [.ok (.frames [])] }

/-- R24: `Q` is what the rule says; it holds after `RA.EXTRACT`, `RA.RESET` and block reset, no command but
`RA.APPEND` makes it false, and it bounds the buffer by 259 bytes. Block reset as an input between two commands is the
model's choice, log entry 5. -/
def Obligations.QuiescenceIsKept : Prop :=
  (∀ rbuf : Bytes, quiescent rbuf = true ↔
    (rbuf = [] ∨ rbuf = [0x02#8] ∨
      ∃ (L : Byte) (r : Bytes), rbuf = 0x02#8 :: L :: r ∧ rbuf.length < L.toNat + 5)) ∧
  (∀ s t : State, exec .raExtract s = .next t → quiescent t.rbuf = true) ∧
  (∀ s t : State, exec .raReset s = .next t → quiescent t.rbuf = true) ∧
  (∀ (s t : State) (rest : List PortInput), s.input = .blockReset :: rest → step s = .next t →
    quiescent t.rbuf = true) ∧
  (∀ (i : Instr) (s t : State), (∀ c, i ≠ .raAppend c) → exec i s = .next t →
    quiescent s.rbuf = true → quiescent t.rbuf = true) ∧
  (∀ rbuf : Bytes, quiescent rbuf = true → rbuf.length ≤ 259)

/-- R149: a pass that rejects leaves a strictly shorter buffer and one that accepts leaves at least 5 bytes fewer; the
loop makes at most `len(rbuf) + 1` passes however many it is allowed, so that many are enough and more change nothing
(the loop's fuel is the model's own, log entry 12); and at most `floor(len(rbuf) / 5)` frames come out. -/
def Obligations.ExtractTerminates : Prop :=
  ∀ (cfg : Config) (rbuf : Bytes),
    (∀ rest, extractPass cfg rbuf = .reject rest → rest.length < rbuf.length) ∧
    (∀ f rest, extractPass cfg rbuf = .accept f rest → rest.length + 5 ≤ rbuf.length) ∧
    (∀ fuel, extractPasses cfg fuel rbuf ≤ rbuf.length + 1) ∧
    (∀ fuel, rbuf.length + 1 ≤ fuel → extractLoop cfg fuel rbuf = extract cfg rbuf) ∧
    (extract cfg rbuf).1.length ≤ rbuf.length / 5

/-- R150, R201 with its frame: `RA.RESET` empties the RawBuffer and touches nothing else. -/
def Obligations.RaResetResult : Prop :=
  ∀ s : State, exec .raReset s = .next { s with rbuf := [], responses := s.responses ++ [.ok .none] }

/-- R152. Any split of a valid frame is some chunks `cs`, the non-empty chunk `c` that completes it, and `k` empty
chunks after that one (a chunk after the frame is complete brings no byte of it; that the rule's last chunk is `c` is
the model's reading, log entry 10, DEDUCED). Fed from an empty buffer, under any parameters: no frame before
completion, the buffer being the prefix received so far; exactly the frame when `c` arrives, the buffer then empty;
nothing more from the empty chunks. -/
def Obligations.FragmentedFrameComesOutOnce : Prop :=
  ∀ (cfg : Config) (f c : Bytes) (cs : List Bytes) (k : Nat) (e : Engine),
    isFrame cfg f = true → cs.flatten ++ c = f → c ≠ [] → e.rbuf = [] →
      (∀ cs1 cs2, cs = cs1 ++ cs2 →
        performAll cfg (cs1.flatMap raFeed) e =
          ({ e with rbuf := cs1.flatten }, cs1.flatMap (fun _ => [.ok .none, .ok (.frames [])]))) ∧
      performAll cfg ((cs ++ [c] ++ List.replicate k []).flatMap raFeed) e =
        (e, cs.flatMap (fun _ => [.ok .none, .ok (.frames [])]) ++
          [.ok .none, .ok (.frames [expectedFrame cfg f])] ++
          (List.replicate k ([] : Bytes)).flatMap (fun _ => [.ok .none, .ok (.frames [])]))

/-- R153: from an empty buffer, any concatenation of valid frames that `RB_CAP` admits, appended in one chunk, comes
out frame for frame in order, and the buffer is empty afterwards. That the chunk fits is the model's reading, log
entry 10 (DEDUCED). -/
def Obligations.BackToBackFramesComeOutInOrder : Prop :=
  ∀ (cfg : Config) (fs : List Bytes) (e : Engine),
    (∀ f ∈ fs, isFrame cfg f = true) → e.rbuf = [] → WithinCapacity cfg.rbCap fs.flatten.length →
      performAll cfg [.raAppend fs.flatten, .raExtract] e =
        (e, [.ok .none, .ok (.frames (fs.map (expectedFrame cfg)))])

/-- R154: spurious markers before a real frame do not lose it. With every spurious span present and no valid frame,
it is the first frame out; while a span is not yet complete it comes out of a later `RA.EXTRACT`, at the latest when
260 bytes counted from each spurious marker are there. That the completed span is no valid frame in the later extract
either is the model's reading, log entry 10 (DEDUCED). -/
def Obligations.GarbageDoesNotHideAFrame : Prop :=
  (∀ (cfg : Config) (g f t : Bytes), isFrame cfg f = true → SpuriousMarkersResolved cfg g (f ++ t) →
    (extract cfg (g ++ f ++ t)).1.head? = some (frameOf f)) ∧
  (∀ (cfg : Config) (g f t u : Bytes), isFrame cfg f = true →
    SpuriousMarkersResolved cfg g (f ++ t ++ u) →
      ((extract cfg (g ++ f ++ t)).1 ++
        (extract cfg ((extract cfg (g ++ f ++ t)).2 ++ u)).1).head? = some (frameOf f)) ∧
  (∀ (cfg : Config) (g f t u : Bytes), isFrame cfg f = true →
    (∀ j, j < g.length → byteAt g j = 0x02#8 →
      j + 260 ≤ (g ++ f ++ t ++ u).length ∧
      isFrame cfg (slice (g ++ f ++ t ++ u) j
        (j + (byteAt (g ++ f ++ t ++ u) (j + 1)).toNat + 5)) = false) →
      ((extract cfg (g ++ f ++ t)).1 ++
        (extract cfg ((extract cfg (g ++ f ++ t)).2 ++ u)).1).head? = some (frameOf f)) ∧
  (∀ (cfg : Config) (rbuf : Bytes), (extract cfg rbuf).2.length ≤ 259)

/-- R144, R47: the frames returned and the bytes left do not depend on where the stream is cut by an `RA.EXTRACT`:
extracting after `a` and again after `b` gives what extracting once after `a ++ b` gives. -/
def Obligations.CuttingTheStreamChangesNothing : Prop :=
  ∀ (cfg : Config) (a b : Bytes),
    extract cfg (a ++ b) =
      ((extract cfg a).1 ++ (extract cfg ((extract cfg a).2 ++ b)).1,
        (extract cfg ((extract cfg a).2 ++ b)).2)

/-- R155: a span that happens to be a valid frame is accepted and dropped whole, and for each payload exactly one
choice of the three bytes after it makes the span of a marker and its length byte a valid frame: 1 in 2^24. -/
def Obligations.FalseAcceptanceIsPossible : Prop :=
  (∀ (cfg : Config) (f t : Bytes), isFrame cfg f = true →
    extract cfg (f ++ t) = (frameOf f :: (extract cfg t).1, (extract cfg t).2)) ∧
  (∀ (cfg : Config) (L : Byte) (p : Bytes), p.length = L.toNat →
    ∃! tail : Bytes, tail.length = 3 ∧ isFrame cfg ([0x02#8, L] ++ p ++ tail) = true)

/-- R205: a marker whose length byte asks for more bytes than are there holds everything back, unchanged, for as
long as fewer than `L' + 5` bytes are present; with 260 bytes from the marker it never does; and `RA.RESET` drops it
with all it holds back. -/
def Obligations.SpuriousMarkerHoldsBack : Prop :=
  (∀ (cfg : Config) (L : Byte) (r : Bytes) (c : Word16), r.length + 2 < L.toNat + 5 →
    perform cfg .raExtract ⟨c, 0x02#8 :: L :: r⟩ = (⟨c, 0x02#8 :: L :: r⟩, .ok (.frames []))) ∧
  (∀ (cfg : Config) (rbuf : Bytes), 260 ≤ rbuf.length → (extract cfg rbuf).2.length < rbuf.length) ∧
  (∀ (cfg : Config) (e : Engine), perform cfg .raReset e = (⟨e.crcReg, []⟩, .ok .none))

/-- R65: only 0x02 is a header. Any other leading byte, 0x03 and 0x04 among them, is discarded, no frame returned is
`Large`, and encoding one is `UnsupportedVariant`. -/
def Obligations.LargeFramesAreNotRecognised : Prop :=
  (∀ (cfg : Config) (b : Byte) (r : Bytes), b ≠ 0x02#8 → extract cfg (b :: r) = extract cfg r) ∧
  (∀ (cfg : Config) (rbuf : Bytes), ∀ f ∈ (extract cfg rbuf).1, f.mode = .small) ∧
  (∀ (cfg : Config) (p : Bytes) (e : Engine),
    perform cfg (.frmEncode .large p) e = (e, .error .unsupportedVariant))

/-- R48, R23: the frames returned stand in the old buffer one after the other, each whole and in its order, with
dropped bytes between them, and the new buffer is what follows the last dropped byte. -/
def Obligations.FramesComeOutInBufferOrder : Prop :=
  ∀ (cfg : Config) (rbuf : Bytes), ∃ (gaps : List Bytes) (dropped : Bytes),
    gaps.length = (extract cfg rbuf).1.length ∧
    rbuf = (List.zipWith (fun g f => g ++ encodeFrame cfg f.payload) gaps (extract cfg rbuf).1).flatten ++
      dropped ++ (extract cfg rbuf).2

/-- R23: `rbuf` grows at its end by `RA.APPEND` only, shrinks at its front only, and no byte is inserted, reordered
or modified; the commands outside the reassembler leave it alone (R22). -/
def Obligations.RbufChangesOnlyAtItsEnds : Prop :=
  ∀ (i : Instr) (s t : State), exec i s = .next t →
    (∀ c, i = .raAppend c → t.rbuf = s.rbuf ∨ t.rbuf = s.rbuf ++ c) ∧
    (i = .raExtract → ∃ n, t.rbuf = s.rbuf.drop n) ∧
    (i = .raReset → t.rbuf = []) ∧
    ((∀ c, i ≠ .raAppend c) → i ≠ .raExtract → i ≠ .raReset → t.rbuf = s.rbuf)

/-- R72: `RA.FEED {c}` is `RA.APPEND {c}` then `RA.EXTRACT`, the host receives both responses in turn, and
`RA.EXTRACT` runs even when the chunk overflowed. -/
def Obligations.RaFeedRunsBothCommands : Prop :=
  ∀ (cfg : Config) (c : Bytes) (e : Engine),
    (WithinCapacity cfg.rbCap (e.rbuf.length + c.length) →
      performAll cfg (raFeed c) e =
        (⟨e.crcReg, (extract cfg (e.rbuf ++ c)).2⟩,
          [.ok .none, .ok (.frames (extract cfg (e.rbuf ++ c)).1)])) ∧
    (¬ WithinCapacity cfg.rbCap (e.rbuf.length + c.length) →
      performAll cfg (raFeed c) e =
        (⟨e.crcReg, (extract cfg e.rbuf).2⟩,
          [.error (.bufferOverflow (e.rbuf.length + c.length)), .ok (.frames (extract cfg e.rbuf).1)]))

/-! ## Frames and invariants -/

/-- R21, R22: the commands that write no state leave `crc_reg`, every byte of the RawBuffer and the port's inputs as
they were. -/
def Obligations.PureCommandsFrame : Prop :=
  ∀ (i : Instr) (s t : State),
    (i = .crcRead ∨ (∃ p, i = .crcCompute p) ∨ (∃ m p, i = .frmEncode m p) ∨
      (∃ cand, i = .frmDecode cand) ∨ (∃ p c, i = .frmValidate p c)) →
    exec i s = .next t →
      t.crcReg = s.crcReg ∧ (∀ a, Memory.read t.rbuf a = Memory.read s.rbuf a) ∧ t.input = s.input

/-- R103, R104: `CRC.INIT` and `CRC.UPDATE` leave every byte of the RawBuffer and the port's inputs as they were. -/
def Obligations.CrcCommandsFrame : Prop :=
  ∀ (i : Instr) (s t : State), (i = .crcInit ∨ ∃ b, i = .crcUpdate b) → exec i s = .next t →
    (∀ a, Memory.read t.rbuf a = Memory.read s.rbuf a) ∧ t.input = s.input

/-- R140, R141, R40: `RA.APPEND` leaves `crc_reg` and the inputs, and every byte below the old length reads as
before. The addresses stored to are those from the old length on, `len(c)` of them: they read as the chunk's bytes
when the status is `OK`, and nothing is stored otherwise. -/
def Obligations.RaAppendFrame : Prop :=
  (∀ (c : Bytes) (s t : State), exec (.raAppend c) s = .next t →
    t.crcReg = s.crcReg ∧ t.input = s.input ∧
    (∀ a, ¬ (s.rbuf.length ≤ a ∧ a < s.rbuf.length + c.length) →
      Memory.read t.rbuf a = Memory.read s.rbuf a)) ∧
  (∀ (cfg : Config) (c : Bytes) (e : Engine), (perform cfg (.raAppend c) e).2.status = 0x00#8 →
    ∀ k, Memory.read (perform cfg (.raAppend c) e).1.rbuf (e.rbuf.length + k) = Memory.read c k) ∧
  (∀ (cfg : Config) (c : Bytes) (e : Engine), (perform cfg (.raAppend c) e).2.status ≠ 0x00#8 →
    (perform cfg (.raAppend c) e).1.crcReg = e.crcReg ∧
    ∀ a, Memory.read (perform cfg (.raAppend c) e).1.rbuf a = Memory.read e.rbuf a)

/-- R142, R150, R40: `RA.EXTRACT` and `RA.RESET` leave `crc_reg` and the inputs, and move the bytes they keep to
lower addresses all by one distance: after dropping `n` bytes, what was at address `a + n` is at address `a`. -/
def Obligations.DroppingCommandsFrame : Prop :=
  ∀ (i : Instr) (s t : State), (i = .raExtract ∨ i = .raReset) → exec i s = .next t →
    t.crcReg = s.crcReg ∧ t.input = s.input ∧
    ∃ n, ∀ a, Memory.read t.rbuf a = Memory.read s.rbuf (a + n)

/-- R22: `len(rbuf) ≤ RB_CAP` is kept by every step, from every state that has it, whatever the input. -/
def Obligations.StepKeepsTheCapacity : Prop :=
  ∀ s t : State, s.Inv → step s = .next t → t.Inv

/-- R29, R121: every step from a state with sound responses gives sound responses: each Frame ever returned is
`Small`, with at most 255 bytes of payload and its CRC; each encoded frame is valid. -/
def Obligations.StepKeepsResponsesSound : Prop :=
  ∀ s t : State, s.Sound → step s = .next t → t.Sound

/-- R22, R200: both invariants hold right after reset, and `Inv` is R22's bound for every admitted capacity. -/
def Obligations.InvariantsHoldAtReset : Prop :=
  State.reset.Inv ∧ State.reset.Sound ∧
  ∀ (cap : RbCap) (rbuf : Bytes), Memory.wf cap rbuf = true ↔ WithinCapacity cap rbuf.length
end

