-- ==== Sys2Proof/Laws/State.lean ====
section
/-! SUPPORT. One lemma per field and update of the state, so that no later proof unfolds a record update. -/

namespace Sys2Proof.Machine

@[simp] theorem Engine.setCrcReg_crcReg (e : Engine) (v : Word16) : (e.setCrcReg v).crcReg = v := rfl
@[simp] theorem Engine.setCrcReg_rbuf (e : Engine) (v : Word16) : (e.setCrcReg v).rbuf = e.rbuf := rfl
@[simp] theorem Engine.setRbuf_crcReg (e : Engine) (b : Bytes) : (e.setRbuf b).crcReg = e.crcReg := rfl
@[simp] theorem Engine.setRbuf_rbuf (e : Engine) (b : Bytes) : (e.setRbuf b).rbuf = b := rfl

@[simp] theorem Engine.reset_crcReg (cfg : Config) : (Engine.reset cfg).crcReg = cfg.crcInit := rfl
@[simp] theorem Engine.reset_rbuf (cfg : Config) : (Engine.reset cfg).rbuf = [] := rfl
@[simp] theorem State.reset_toEngine : State.reset.toEngine = Engine.reset Config.wvfe := rfl
@[simp] theorem State.reset_input : State.reset.input = [] := rfl
@[simp] theorem State.reset_responses : State.reset.responses = [] := rfl

@[simp] theorem wvfe_crcInit : Config.wvfe.crcInit = 0x0000#16 := rfl
@[simp] theorem wvfe_crcXorOut : Config.wvfe.crcXorOut = 0x0000#16 := rfl

@[simp] theorem returnOk_fst (r : Result) (e : Engine) : (returnOk r e).1 = e := rfl
@[simp] theorem returnOk_snd (r : Result) (e : Engine) : (returnOk r e).2 = .ok r := rfl
@[simp] theorem raise_fst (err : Error) (e : Engine) : (raise err e).1 = e := rfl
@[simp] theorem raise_snd (err : Error) (e : Engine) : (raise err e).2 = .error err := rfl

/-- Everything `commit` can do: the one next state, its engine and its response those of the command. -/
theorem commit_eq_next_iff (done : Engine × Response) (s t : State) :
    commit done s = .next t ↔
      t = { s with toEngine := done.1, responses := s.responses ++ [done.2] } := by
  simp [commit, eq_comm]

/-- A taken input is the head of the queue, and nothing else of the state changes. -/
theorem takeInput_eq_some_iff (s t : State) (x : PortInput) :
    takeInput s = some (x, t) ↔ ∃ rest, s.input = x :: rest ∧ t = { s with input := rest } := by
  unfold takeInput
  cases s.input <;> simp [eq_comm]

theorem takeInput_eq_none_iff (s : State) : takeInput s = none ↔ s.input = [] := by
  unfold takeInput
  cases s.input <;> simp

end Sys2Proof.Machine
end

