-- ==== Sys2Proof/Laws/Crc.lean ====
section
/-! SUPPORT. The CRC over its sequence and over XOR: the fold, linearity and injectivity of the byte step. -/

namespace Sys2Proof.Laws

open Sys2Proof.Machine

theorem crcFold_nil (c : Word16) : crcFold c [] = c := rfl

theorem crcFold_cons (c : Word16) (b : Byte) (p : Bytes) : crcFold c (b :: p) = crcFold (crcStep c b) p := rfl

theorem crcFold_append (c : Word16) (p q : Bytes) : crcFold c (p ++ q) = crcFold (crcFold c p) q := by
  simp [crcFold]

/-- One shift is linear over XOR. -/
theorem crcShift_xor (a b : Word16) : crcShift (a ^^^ b) = crcShift a ^^^ crcShift b := by
  have cancel (x y : Word16) : x ^^^ Config.crcPoly ^^^ (y ^^^ Config.crcPoly) = x ^^^ y := by
    rw [BitVec.xor_assoc, ← BitVec.xor_assoc Config.crcPoly, BitVec.xor_comm Config.crcPoly y,
      BitVec.xor_assoc y, BitVec.xor_self, BitVec.xor_zero]
  unfold crcShift
  rw [BitVec.getLsbD_xor, BitVec.shiftLeft_xor_distrib]
  cases a.getLsbD 15 <;> cases b.getLsbD 15
  · rfl
  · exact BitVec.xor_assoc ..
  · simp only [Bool.xor_false, if_true, if_false, Bool.false_eq_true]; ac_rfl
  · exact (cancel _ _).symm

theorem crcShift_zero : crcShift 0 = 0 := by decide

/-- The polynomial's constant term is 1, so the bit shifted out is not lost: a shift is zero on zero only. -/
theorem crcShift_eq_zero {c : Word16} (h : crcShift c = 0) : c = 0 := by
  unfold crcShift at h
  by_cases h15 : c.getLsbD 15 = true
  · rw [if_pos h15] at h
    have h0 := congrArg (fun x : Word16 => x.getLsbD 0) h
    simp [Config.crcPoly] at h0
  · rw [if_neg h15] at h
    ext k hk
    by_cases hk15 : k = 15
    · subst hk15; simpa [BitVec.getLsbD_eq_getElem] using h15
    · have := congrArg (fun x : Word16 => x.getLsbD (k + 1)) h
      have hk' : k + 1 < 16 := by omega
      simpa [hk', BitVec.getLsbD_eq_getElem hk] using this

theorem crcShifts_xor (n : Nat) (a b : Word16) : crcShifts n (a ^^^ b) = crcShifts n a ^^^ crcShifts n b := by
  induction n generalizing a b with
  | zero => rfl
  | succ n ih => simp [crcShifts, crcShift_xor, ih]

theorem crcShifts_zero (n : Nat) : crcShifts n 0 = 0 := by
  induction n with
  | zero => rfl
  | succ n ih => rw [crcShifts, crcShift_zero, ih]

theorem crcShifts_eq_zero {n : Nat} {c : Word16} (h : crcShifts n c = 0) : c = 0 := by
  induction n generalizing c with
  | zero => exact h
  | succ n ih => exact crcShift_eq_zero (ih h)

/-- The byte step is linear over XOR in both arguments. -/
theorem crcStep_xor (c c' : Word16) (b b' : Byte) :
    crcStep (c ^^^ c') (b ^^^ b') = crcStep c b ^^^ crcStep c' b' := by
  unfold crcStep zext16
  rw [← crcShifts_xor]
  rw [BitVec.setWidth_xor, BitVec.shiftLeft_xor_distrib]
  congr 1
  ac_rfl

/-- With the same byte, different registers stay different. -/
theorem crcStep_injective {c c' : Word16} {b : Byte} (h : crcStep c b = crcStep c' b) : c = c' := by
  have hx := crcStep_xor c c' b b
  rw [h, BitVec.xor_self, BitVec.xor_self] at hx
  have h0 : (c ^^^ c') ^^^ (zext16 (0#8) <<< 8) = 0 := crcShifts_eq_zero hx
  simpa [zext16] using h0

theorem crcFold_injective {c c' : Word16} {p : Bytes} (h : crcFold c p = crcFold c' p) : c = c' := by
  induction p generalizing c c' with
  | nil => exact h
  | cons b p ih => exact crcStep_injective (ih h)

end Sys2Proof.Laws
end

