-- ==== Sys2Proof/Laws/Decode.lean ====
section
/-! SUPPORT. The command map opcode by opcode: what the mask and pattern rows of R69 say of each legal byte, that no byte belongs to two rows, and that every other byte is illegal. -/

namespace Sys2Proof.Laws

/-- No opcode byte belongs to two rows of the map. -/
theorem opTable_disjoint : ∀ op : Byte, (opTable.filter (·.covers op)).length ≤ 1 := by
  decide +kernel

theorem operationOf_crcInit : operationOf 0x10#8 = some .crcInit := by decide
theorem operationOf_crcUpdate : operationOf 0x11#8 = some .crcUpdate := by decide
theorem operationOf_crcRead : operationOf 0x12#8 = some .crcRead := by decide
theorem operationOf_crcCompute : operationOf 0x13#8 = some .crcCompute := by decide
theorem operationOf_frmEncode (m : FrameMode) : operationOf (encodeOpcode m) = some .frmEncode := by
  cases m <;> decide
theorem operationOf_frmDecode : operationOf 0x22#8 = some .frmDecode := by decide
theorem operationOf_frmValidate : operationOf 0x23#8 = some .frmValidate := by decide
theorem operationOf_raAppend : operationOf 0x30#8 = some .raAppend := by decide
theorem operationOf_raExtract : operationOf 0x31#8 = some .raExtract := by decide
theorem operationOf_raReset : operationOf 0x32#8 = some .raReset := by decide

/-- The mode field of the opcode of each mode (R68). -/
theorem modeOfOpcode_encodeOpcode (m : FrameMode) : modeOfOpcode (encodeOpcode m) = m := by
  cases m <;> decide

/-- Every opcode byte is one of the eleven legal ones, or has no operation and no format. -/
theorem opcode_cases : ∀ op : Byte,
    (operationOf op = none ∧ formatOf op = none) ∨
    op ∈ [0x10#8, 0x11#8, 0x12#8, 0x13#8, 0x20#8, 0x21#8, 0x22#8, 0x23#8, 0x30#8, 0x31#8, 0x32#8] := by
  decide +kernel

/-- What the decoder does once the operation is known. -/
theorem decode_of_operationOf {op : Byte} {o : Operation} (h : operationOf op = some o)
    (operands : List Operand) :
    decode ⟨op, operands⟩ =
      match assemble o op operands with
      | none => .error (.operandMismatch op)
      | some i => .ok i := by
  cases ha : assemble o op operands <;> simp only [decode, h, ha]

end Sys2Proof.Laws
end

