-- ==== Sys2Proof/Laws/Memory.lean ====
section
/-! SUPPORT. What the RawBuffer primitives do, that each keeps the RawBuffer's form, and that its (address, byte) view is canonical. -/

namespace Sys2Proof.Machine

theorem bufDrop_eq_drop (b : Bytes) (n : Nat) : bufDrop b n = b.drop n := by
  simp [bufDrop, slice]

theorem memRead_zero_eq_take (b : Bytes) (n : Nat) : memRead b 0 n = b.take n := by
  simp [memRead, slice]

theorem byteAt_eq_getElem (s : Bytes) (k : Nat) (h : k < s.length) : byteAt s k = s[k] := by
  simp [byteAt, List.getD_eq_getElem?_getD, h]

theorem capHolds_unbounded (n : Nat) : capHolds .unbounded n = true := by
  simp [capHolds]

theorem capHolds_finite (extra n : Nat) : capHolds (.finite extra) n = decide (n ≤ 260 + extra) := by
  simp only [capHolds, Config.maxFrame, Config.maxPayload, Config.overhead]
  by_cases h : n ≤ 260 + extra <;> simp [h]
  omega

/-- Every admitted capacity holds a maximal frame (R41). -/
theorem capHolds_of_le_maxFrame (cap : RbCap) (n : Nat) (h : n ≤ 260) : capHolds cap n = true := by
  cases cap with
  | unbounded => exact capHolds_unbounded n
  | finite extra => rw [capHolds_finite]; simp; omega

theorem capHolds_mono (cap : RbCap) {m n : Nat} (h : m ≤ n) (hn : capHolds cap n = true) :
    capHolds cap m = true := by
  cases cap with
  | unbounded => exact capHolds_unbounded m
  | finite extra => rw [capHolds_finite] at *; simp at *; omega

/-- A RawBuffer no longer than one that has the form has it. -/
theorem Memory.wf_of_length_le {cap : RbCap} {b b' : Bytes} (hl : b'.length ≤ b.length)
    (h : Memory.wf cap b = true) : Memory.wf cap b' = true :=
  capHolds_mono cap hl h

theorem Memory.wf_bufClear (cap : RbCap) : Memory.wf cap bufClear = true :=
  capHolds_of_le_maxFrame cap 0 (by omega)

theorem Memory.wf_bufDrop {cap : RbCap} {b : Bytes} (n : Nat) (h : Memory.wf cap b = true) :
    Memory.wf cap (bufDrop b n) = true := by
  refine Memory.wf_of_length_le ?_ h
  rw [bufDrop_eq_drop, List.length_drop]
  omega

/-- Appending keeps the form exactly when the chunk fits, the check `RA.APPEND` makes. -/
theorem Memory.wf_bufAppend (cap : RbCap) (b c : Bytes) :
    Memory.wf cap (bufAppend b c) = capHolds cap (b.length + c.length) := by
  simp [Memory.wf, bufAppend]

/-- The reset RawBuffer has the form. -/
theorem Memory.wf_reset : Memory.wf Config.wvfe.rbCap State.reset.rbuf = true :=
  Memory.wf_bufClear _

/-- The view as (address, byte) pairs lists the addresses `0 .. len(rbuf)-1` in rising order. -/
theorem Memory.cells_addresses (b : Bytes) : (Memory.cells b).map Prod.fst = List.range b.length := by
  refine List.ext_getElem (by simp [Memory.cells]) fun k h _ => ?_
  simp [Memory.cells]

/-- Equal views are equal RawBuffers. -/
theorem Memory.cells_injective {b b' : Bytes} (h : Memory.cells b = Memory.cells b') : b = b' := by
  have := congrArg (List.map Prod.snd) h
  simpa [Memory.cells, List.mapIdx_eq_zipIdx_map, List.map_map, Function.comp_def] using this

end Sys2Proof.Machine
end

