-- ==== Sys2Proof/Laws/Framer.lean ====
section
/-! SUPPORT. The wire layout `0x02, L, payload, crc_hi, crc_lo, …`: how its parts are read back, and which candidates and frames have it. -/

namespace Sys2Proof.Laws

open Sys2Proof.Machine

/-- A candidate laid out in its parts: marker, length byte, payload, the two CRC bytes, and whatever follows. -/
abbrev layout (L : Byte) (p : Bytes) (h l : Byte) (rest : Bytes) : Bytes :=
  0x02#8 :: L :: (p ++ h :: l :: rest)

theorem frameLength_layout (L h l : Byte) (p rest : Bytes) : frameLength (layout L p h l rest) = L.toNat := rfl

/-- The payload, the CRC bytes and what follows stand at the offsets of R60. -/
theorem payload_layout {L h l : Byte} {p rest : Bytes} (hp : p.length = L.toNat) :
    slice (layout L p h l rest) 2 (2 + L.toNat) = p := by
  simp [slice, ← hp, Nat.add_comm 2]

theorem crcHi_layout {L h l : Byte} {p rest : Bytes} (hp : p.length = L.toNat) :
    byteAt (layout L p h l rest) (2 + L.toNat) = h := by
  simp [byteAt, ← hp, Nat.add_comm 2]

theorem crcLo_layout {L h l : Byte} {p rest : Bytes} (hp : p.length = L.toNat) :
    byteAt (layout L p h l rest) (3 + L.toNat) = l := by
  simp [byteAt, ← hp, show 3 + p.length = p.length + 1 + 1 + 1 by omega]

theorem after_layout {L h l : Byte} {p rest : Bytes} (hp : p.length = L.toNat) (k : Nat) :
    byteAt (layout L p h l rest) (4 + L.toNat + k) = byteAt rest k := by
  simp [byteAt, ← hp, show 4 + p.length + k = p.length + (k + 1 + 1) + 1 + 1 by omega, List.getElem?_append]

/-- Every sequence that begins with the marker and has at least `L + 4` bytes is laid out. -/
theorem exists_layout {L : Byte} {r : Bytes} (h : L.toNat + 2 ≤ r.length) :
    ∃ p x y rest, p.length = L.toNat ∧ (0x02#8 :: L :: r) = layout L p x y rest := by
  obtain ⟨x, y, rest, hd⟩ : ∃ x y rest, r.drop L.toNat = x :: y :: rest := by
    match hd : r.drop L.toNat with
    | [] => have := congrArg List.length hd; simp at this; omega
    | [_] => have := congrArg List.length hd; simp at this; omega
    | x :: y :: rest => exact ⟨x, y, rest, rfl⟩
  refine ⟨r.take L.toNat, x, y, rest, List.length_take_of_le (by omega), ?_⟩
  rw [layout, ← hd, List.take_append_drop]

/-- `Decode` of a laid-out candidate: its payload and its CRC, whatever follows (R122). -/
theorem decodeCandidate_layout {L h l : Byte} {p rest : Bytes} (hp : p.length = L.toNat) :
    decodeCandidate (layout L p h l rest) = some (p, be16 h l) := by
  have h2 : ¬ (layout L p h l rest).length < 2 := by simp
  have hm : ¬ byteAt (layout L p h l rest) 0 ≠ Config.sof := by simp [byteAt]
  have h4 : ¬ (layout L p h l rest).length < frameLength (layout L p h l rest) + 4 := by
    rw [frameLength_layout]; simp [← hp]
  rw [decodeCandidate, if_neg h2, if_neg hm, if_neg h4, frameLength_layout, payload_layout hp, crcHi_layout hp,
    crcLo_layout hp]

/-- Everything `Decode` accepts is laid out, and it returns the parts. -/
theorem decodeCandidate_eq_some_iff (cand p : Bytes) (c : Word16) :
    decodeCandidate cand = some (p, c) ↔
      ∃ L h l rest, p.length = L.toNat ∧ c = be16 h l ∧ cand = layout L p h l rest := by
  constructor
  · intro hd
    match cand, hd with
    | [], hd => simp [decodeCandidate] at hd
    | [_], hd => simp [decodeCandidate] at hd
    | m :: L :: r, hd =>
      have hL : frameLength (m :: L :: r) = L.toNat := rfl
      by_cases hm : m = 0x02#8
      · subst hm
        by_cases h4 : L.toNat + 2 ≤ r.length
        · obtain ⟨q, x, y, rest, hq, he⟩ := exists_layout h4
          rw [he, decodeCandidate_layout hq] at hd
          simp only [Option.some.injEq, Prod.mk.injEq] at hd
          obtain ⟨rfl, rfl⟩ := hd
          exact ⟨L, x, y, rest, hq, rfl, he⟩
        · have : (0x02#8 :: L :: r).length < frameLength (0x02#8 :: L :: r) + 4 := by
            rw [hL]; simp; omega
          rw [decodeCandidate, if_pos this, ite_self, ite_self] at hd
          cases hd
      · rw [decodeCandidate, if_neg (by simp), if_pos (show byteAt (m :: L :: r) 0 ≠ Config.sof from hm)] at hd
        cases hd
  · rintro ⟨L, h, l, rest, hp, rfl, rfl⟩
    exact decodeCandidate_layout hp

/-- A valid frame is a laid-out candidate with the right CRC, the trailer and nothing after it (R61). -/
theorem isFrame_iff_layout (cfg : Config) (s : Bytes) :
    isFrame cfg s = true ↔
      ∃ L h l p, p.length = L.toNat ∧ crc16 cfg p = be16 h l ∧ s = layout L p h l [0x03#8] := by
  constructor
  · intro hf
    simp only [isFrame, Bool.and_eq_true, decide_eq_true_eq, beq_iff_eq] at hf
    obtain ⟨⟨⟨⟨h5, hm⟩, hlen⟩, hc⟩, ht⟩ := hf
    match s, h5 with
    | m :: L :: r, h5 =>
      have hL : frameLength (m :: L :: r) = L.toNat := rfl
      obtain rfl : m = 0x02#8 := by simpa [byteAt] using hm
      have h4 : L.toNat + 2 ≤ r.length := by rw [hL] at hlen; simp at hlen; omega
      obtain ⟨p, x, y, rest, hp, he⟩ := exists_layout h4
      rw [he] at hc ht hlen ⊢
      rw [frameLength_layout] at hc ht hlen
      rw [crcHi_layout hp, crcLo_layout hp, payload_layout hp] at hc
      have h1 : rest.length = 1 := by simp [← hp] at hlen; omega
      obtain ⟨z, rfl⟩ := List.length_eq_one_iff.mp h1
      have hz := after_layout (h := x) (l := y) (rest := [z]) hp 0
      rw [Nat.add_zero, ht] at hz
      obtain rfl : z = 0x03#8 := by simpa [byteAt, eq_comm] using hz
      exact ⟨L, x, y, p, hp, hc.symm, rfl⟩
  · rintro ⟨L, h, l, p, hp, hc, rfl⟩
    have ht := after_layout (h := h) (l := l) (rest := [0x03#8]) hp 0
    rw [Nat.add_zero] at ht
    simp only [isFrame, frameLength_layout, crcHi_layout hp, crcLo_layout hp, payload_layout hp, ht, hc]
    simp [byteAt, ← hp]

/-- The Frame of a laid-out frame. -/
theorem frameOf_layout {L h l : Byte} {p rest : Bytes} (hp : p.length = L.toNat) :
    frameOf (layout L p h l rest) = ⟨.small, p, be16 h l⟩ := by
  rw [frameOf, frameLength_layout, payload_layout hp, crcHi_layout hp, crcLo_layout hp]

theorem hi_be16 (a b : Byte) : hi (be16 a b) = a := by
  unfold be16 hi zext16
  ext k hk
  simp [hk, show ¬ 8 + k < 8 by omega, show 8 + k < 16 by omega]

theorem lo_be16 (a b : Byte) : lo (be16 a b) = b := by
  unfold be16 lo zext16
  ext k hk
  simp [hk, show k < 16 by omega]

end Sys2Proof.Laws
end

