-- ==== Sys2Proof/Laws/PerInstr.lean ====
section
/-! SUPPORT. The per-instruction family: each command's encoding decodes to it, with every operand at every value. -/

namespace Sys2Proof.Laws.EncodeDecodes

/-- The command `encode` writes for an instruction decodes to that instruction. -/
def Statement (i : Instr) : Prop :=
  decode (encode i) = .ok i

theorem crcInit : Statement .crcInit := decode_of_operationOf operationOf_crcInit _
theorem crcUpdate (b : Byte) : Statement (.crcUpdate b) := decode_of_operationOf operationOf_crcUpdate _
theorem crcRead : Statement .crcRead := decode_of_operationOf operationOf_crcRead _
theorem crcCompute (s : Bytes) : Statement (.crcCompute s) := decode_of_operationOf operationOf_crcCompute _

theorem frmEncode (m : FrameMode) (p : Bytes) : Statement (.frmEncode m p) := by
  refine (decode_of_operationOf (operationOf_frmEncode m) _).trans ?_
  rw [assemble, modeOfOpcode_encodeOpcode]

theorem frmDecode (cand : Bytes) : Statement (.frmDecode cand) := decode_of_operationOf operationOf_frmDecode _

theorem frmValidate (p : Bytes) (c : Word16) : Statement (.frmValidate p c) :=
  decode_of_operationOf operationOf_frmValidate _

theorem raAppend (c : Bytes) : Statement (.raAppend c) := decode_of_operationOf operationOf_raAppend _
theorem raExtract : Statement .raExtract := decode_of_operationOf operationOf_raExtract _
theorem raReset : Statement .raReset := decode_of_operationOf operationOf_raReset _

end Sys2Proof.Laws.EncodeDecodes
end

