-- ==== Sys2Proof/Laws/Perform.lean ====
section
/-! SUPPORT. What one command can do, said once: `exec` is `perform` under the engine's parameters, and `perform` ends in one of five ways. -/

namespace Sys2Proof.Laws

open Sys2Proof.Machine

/-- Every meaning is its command's effect on the engine under the engine's own parameters. -/
theorem exec_eq_commit_perform (i : Instr) (s : State) :
    exec i s = commit (perform Config.wvfe i s.toEngine) s := by
  cases i <;> rfl

/-- Everything `exec` can do, as one next state. -/
theorem exec_eq_next_iff (i : Instr) (s t : State) :
    exec i s = .next t ↔
      t = { s with
        toEngine := (perform Config.wvfe i s.toEngine).1
        responses := s.responses ++ [(perform Config.wvfe i s.toEngine).2] } := by
  rw [exec_eq_commit_perform, commit_eq_next_iff]

/-- The engine a command can leave: `crc_reg` written, a fitting chunk appended, the loop run, the RawBuffer
cleared, or nothing changed. -/
theorem perform_engine_cases (cfg : Config) (i : Instr) (e : Engine) :
    (i = .crcInit ∧ (perform cfg i e).1 = e.setCrcReg cfg.crcInit) ∨
    (∃ b, i = .crcUpdate b ∧ (perform cfg i e).1 = e.setCrcReg (crcStep e.crcReg b)) ∨
    (∃ c, i = .raAppend c ∧ capHolds cfg.rbCap (e.rbuf.length + c.length) = true ∧
      (perform cfg i e).1 = e.setRbuf (bufAppend e.rbuf c)) ∨
    (i = .raExtract ∧ (perform cfg i e).1 = e.setRbuf (extract cfg e.rbuf).2) ∨
    (i = .raReset ∧ (perform cfg i e).1 = e.setRbuf bufClear) ∨
    (perform cfg i e).1 = e := by
  cases i with
  | crcInit => exact .inl ⟨rfl, rfl⟩
  | crcUpdate b => exact .inr (.inl ⟨b, rfl, rfl⟩)
  | raExtract => exact .inr (.inr (.inr (.inl ⟨rfl, rfl⟩)))
  | raReset => exact .inr (.inr (.inr (.inr (.inl ⟨rfl, rfl⟩))))
  | raAppend c =>
    by_cases h : capHolds cfg.rbCap (e.rbuf.length + c.length) = true
    · exact .inr (.inr (.inl ⟨c, rfl, h, by simp [perform, performRaAppend, h]⟩))
    · exact .inr (.inr (.inr (.inr (.inr (by simp [perform, performRaAppend, h])))))
  | frmEncode m p =>
    refine .inr (.inr (.inr (.inr (.inr ?_))))
    cases m with
    | large => rfl
    | small => by_cases h : p.length > Config.maxPayload <;> simp [perform, performFrmEncode, h]
  | frmDecode cand =>
    refine .inr (.inr (.inr (.inr (.inr ?_))))
    simp only [perform, performFrmDecode]
    split <;> rfl
  | crcRead => exact .inr (.inr (.inr (.inr (.inr rfl))))
  | crcCompute p => exact .inr (.inr (.inr (.inr (.inr rfl))))
  | frmValidate p c => exact .inr (.inr (.inr (.inr (.inr rfl))))

/-- A run of the machine goes on from the next state of its first step. -/
theorem core_run_of_next {k : Nat} {s t : State} (h : step s = .next t) :
    Host.Core.run core (k + 1) s = Host.Core.run core k t := by
  have h' : core.step s = .next t := h
  simp only [Host.Core.run]
  rw [h']

theorem performAll_nil (cfg : Config) (e : Engine) : performAll cfg [] e = (e, []) := rfl

theorem performAll_cons (cfg : Config) (i : Instr) (is : List Instr) (e : Engine) :
    performAll cfg (i :: is) e =
      ((performAll cfg is (perform cfg i e).1).1,
        (perform cfg i e).2 :: (performAll cfg is (perform cfg i e).1).2) := rfl

/-- A program in two parts: the second starts from the engine the first leaves. -/
theorem performAll_append (cfg : Config) (is js : List Instr) (e : Engine) :
    performAll cfg (is ++ js) e =
      ((performAll cfg js (performAll cfg is e).1).1,
        (performAll cfg is e).2 ++ (performAll cfg js (performAll cfg is e).1).2) := by
  induction is generalizing e with
  | nil => rfl
  | cons i is ih => simp [performAll_cons, ih]

end Sys2Proof.Laws
end

