-- ==== Sys2Proof/Laws/Reassembler.lean ====
section
/-! SUPPORT. One pass of `RA.EXTRACT`'s loop on each shape a RawBuffer can have, and the loop without its fuel. -/

namespace Sys2Proof.Laws

open Sys2Proof.Machine

/-- The shapes of a RawBuffer: empty, a first byte that is no marker, the marker alone, an incomplete candidate, a
complete candidate with the byte `x` where its trailer belongs. -/
theorem rbuf_cases (rbuf : Bytes) :
    rbuf = [] ∨
    (∃ b t, b ≠ 0x02#8 ∧ rbuf = b :: t) ∨
    rbuf = [0x02#8] ∨
    (∃ L r, rbuf = 0x02#8 :: L :: r ∧ r.length < L.toNat + 3) ∨
    (∃ L p h l x rest, p.length = L.toNat ∧ rbuf = layout L p h l (x :: rest)) := by
  match rbuf with
  | [] => exact .inl rfl
  | b :: t =>
    by_cases hb : b = 0x02#8
    · subst hb
      match t with
      | [] => exact .inr (.inr (.inl rfl))
      | L :: r =>
        by_cases hr : r.length < L.toNat + 3
        · exact .inr (.inr (.inr (.inl ⟨L, r, rfl, hr⟩)))
        · obtain ⟨p, h, l, rest, hp, he⟩ := exists_layout (L := L) (r := r) (by omega)
          match rest, he with
          | [], he =>
            have := congrArg List.length he
            simp [layout, hp] at this
            omega
          | x :: rest, he => exact .inr (.inr (.inr (.inr ⟨L, p, h, l, x, rest, hp, he⟩)))
    · exact .inr (.inl ⟨b, t, hb, rfl⟩)

theorem dropToMarker_nil : dropToMarker [] = [] := rfl

theorem dropToMarker_marker (t : Bytes) : dropToMarker (0x02#8 :: t) = 0x02#8 :: t := by
  simp [dropToMarker, bufDrop_eq_drop, List.findIdx_cons]

theorem dropToMarker_other {b : Byte} (hb : b ≠ 0x02#8) (t : Bytes) : dropToMarker (b :: t) = dropToMarker t := by
  have : (b == Config.sof) = false := by simpa using hb
  rw [dropToMarker, bufDrop_eq_drop, List.findIdx_cons, this, dropToMarker, bufDrop_eq_drop]
  rfl

/-- Steps (a) and (b): a byte that is no marker is dropped before anything is looked at. -/
theorem extractPass_other (cfg : Config) {b : Byte} (hb : b ≠ 0x02#8) (t : Bytes) :
    extractPass cfg (b :: t) = extractPass cfg t := by
  rw [extractPass, dropToMarker_other hb, extractPass]

theorem extractPass_nil (cfg : Config) : extractPass cfg [] = .stop [] := rfl

theorem extractPass_marker (cfg : Config) (t : Bytes) :
    extractPass cfg (0x02#8 :: t) = passAtMarker cfg (0x02#8 :: t) := by
  rw [extractPass, dropToMarker_marker]

/-- Step (c). -/
theorem extractPass_marker_alone (cfg : Config) : extractPass cfg [0x02#8] = .stop [0x02#8] := rfl

/-- Step (d). -/
theorem extractPass_incomplete (cfg : Config) {L : Byte} {r : Bytes} (h : r.length < L.toNat + 3) :
    extractPass cfg (0x02#8 :: L :: r) = .stop (0x02#8 :: L :: r) := by
  have hL : frameLength (0x02#8 :: L :: r) = L.toNat := rfl
  rw [extractPass_marker, passAtMarker, if_neg (by simp), if_pos (by rw [hL]; simp; omega)]

/-- Steps (e), (f), (g) on a complete candidate. -/
theorem extractPass_layout (cfg : Config) {L h l x : Byte} {p rest : Bytes} (hp : p.length = L.toNat) :
    extractPass cfg (layout L p h l (x :: rest)) =
      if x = 0x03#8 ∧ crc16 cfg p = be16 h l then .accept ⟨.small, p, be16 h l⟩ rest
      else .reject ((layout L p h l (x :: rest)).drop 1) := by
  have hlen : (layout L p h l (x :: rest)).length = L.toNat + 5 + rest.length := by
    simp [← hp]; omega
  have hx : byteAt (layout L p h l (x :: rest)) (L.toNat + 4) = x := by
    have := after_layout (h := h) (l := l) (rest := x :: rest) hp 0
    rw [Nat.add_zero, Nat.add_comm] at this
    exact this
  have hspan : (layout L p h l (x :: rest)).take (L.toNat + 4 + 1) = layout L p h l [x] := by
    simp [← hp, show p.length + 4 + 1 = p.length + 1 + 1 + 1 + 1 + 1 by omega, List.take_append,
      show p.length + 1 + 1 + 1 - p.length = 3 by omega]
  have hrest : (layout L p h l (x :: rest)).drop (L.toNat + 4 + 1) = rest := by
    simp [← hp, show p.length + 4 + 1 = p.length + 1 + 1 + 1 + 1 + 1 by omega, List.drop_append,
      show p.length + 1 + 1 + 1 - p.length = 3 by omega]
  rw [extractPass_marker, passAtMarker, if_neg (by rw [hlen]; omega), frameLength_layout,
    if_neg (by rw [hlen]; omega), judgeCandidate, hx, memRead_zero_eq_take, hspan, decodeCandidate_layout hp,
    bufDrop_eq_drop, bufDrop_eq_drop, hrest]
  by_cases hx3 : x = 0x03#8
  · by_cases hc : crc16 cfg p = be16 h l <;> simp [hx3, hc, validate]
  · rw [if_pos (show x ≠ Config.eof from hx3), if_neg (fun hc => hx3 hc.1)]

/-- A pass that does not return makes the RawBuffer strictly shorter (R149). -/
theorem extractPass_shrinks (cfg : Config) (rbuf : Bytes) :
    match extractPass cfg rbuf with
    | .stop _ => True
    | .reject rest => rest.length < rbuf.length
    | .accept _ rest => rest.length + 5 ≤ rbuf.length := by
  induction rbuf with
  | nil => trivial
  | cons b t ih =>
    obtain h | ⟨b', t', hb, h⟩ | h | ⟨L, r, h, hr⟩ | ⟨L, p, y, l, x, rest, hp, h⟩ := rbuf_cases (b :: t)
    · cases h
    · obtain ⟨rfl, rfl⟩ := List.cons.inj h
      rw [extractPass_other cfg hb]
      revert ih
      cases extractPass cfg t with
      | stop rest => simp
      | reject rest => simp; omega
      | accept f rest => simp; omega
    · rw [h]; trivial
    · rw [h, extractPass_incomplete cfg hr]; trivial
    · rw [h, extractPass_layout cfg hp]
      by_cases hx : x = 0x03#8 ∧ crc16 cfg p = be16 y l
      · rw [if_pos hx]; simp
      · rw [if_neg hx]; simp

@[simp] theorem extractPasses_zero (cfg : Config) (rbuf : Bytes) : extractPasses cfg 0 rbuf = 0 := rfl

theorem extractPasses_succ (cfg : Config) (fuel : Nat) (rbuf : Bytes) :
    extractPasses cfg (fuel + 1) rbuf =
      match extractPass cfg rbuf with
      | .stop _ => 1
      | .reject rest => extractPasses cfg fuel rest + 1
      | .accept _ rest => extractPasses cfg fuel rest + 1 := rfl

/-- With enough fuel the loop does not depend on it. -/
theorem extractLoop_enough (cfg : Config) {rbuf : Bytes} {fuel fuel' : Nat} (h : rbuf.length < fuel)
    (h' : rbuf.length < fuel') : extractLoop cfg fuel rbuf = extractLoop cfg fuel' rbuf := by
  induction fuel generalizing rbuf fuel' with
  | zero => omega
  | succ n ih =>
    obtain ⟨m, rfl⟩ : ∃ m, fuel' = m + 1 := ⟨fuel' - 1, by omega⟩
    have hs := extractPass_shrinks cfg rbuf
    simp only [extractLoop]
    cases hp : extractPass cfg rbuf with
    | stop rest => rfl
    | reject rest =>
      simp only [hp] at hs ⊢
      exact ih (by omega) (by omega)
    | accept f rest =>
      simp only [hp] at hs ⊢
      rw [ih (rbuf := rest) (by omega) (fuel' := m) (by omega)]

/-- The loop of R142 without fuel. -/
theorem extract_eq (cfg : Config) (rbuf : Bytes) :
    extract cfg rbuf =
      match extractPass cfg rbuf with
      | .stop rest => ([], rest)
      | .reject rest => extract cfg rest
      | .accept f rest => (f :: (extract cfg rest).1, (extract cfg rest).2) := by
  have hs := extractPass_shrinks cfg rbuf
  rw [extract, extractLoop]
  cases hp : extractPass cfg rbuf with
  | stop rest => rfl
  | reject rest =>
    simp only [hp] at hs ⊢
    exact extractLoop_enough cfg (by omega) (by omega)
  | accept f rest =>
    simp only [hp] at hs ⊢
    rw [extract, extractLoop_enough cfg (rbuf := rest) (fuel' := rest.length + 1) (by omega) (by omega)]

/-- Induction over a RawBuffer the way the loop goes through it: past a byte that is no marker, past an accepted
frame, one byte past a rejected marker. -/
theorem rbuf_induction {P : Bytes → Prop} (empty : P [])
    (other : ∀ b t, b ≠ 0x02#8 → P t → P (b :: t)) (alone : P [0x02#8])
    (incomplete : ∀ L r, r.length < L.toNat + 3 → P (0x02#8 :: L :: r))
    (complete : ∀ L p h l x rest, p.length = L.toNat → P rest → P (L :: (p ++ h :: l :: x :: rest)) →
      P (layout L p h l (x :: rest))) (rbuf : Bytes) : P rbuf := by
  induction hn : rbuf.length using Nat.strong_induction_on generalizing rbuf with
  | _ n ih =>
    subst hn
    obtain rfl | ⟨b, t, hb, rfl⟩ | rfl | ⟨L, r, rfl, hr⟩ | ⟨L, p, h, l, x, rest, hp, rfl⟩ := rbuf_cases rbuf
    · exact empty
    · exact other _ _ hb (ih _ (by simp) _ rfl)
    · exact alone
    · exact incomplete _ _ hr
    · exact complete _ _ _ _ _ _ hp (ih _ (by simp; omega) _ rfl) (ih _ (by simp) _ rfl)

/-- What `RA.EXTRACT` leaves is no longer than what it was given. -/
theorem extract_length_le (cfg : Config) (rbuf : Bytes) : (extract cfg rbuf).2.length ≤ rbuf.length := by
  induction rbuf using rbuf_induction with
  | empty => exact Nat.le_refl _
  | other b t hb ih =>
    rw [extract_eq, extractPass_other cfg hb, ← extract_eq]
    exact Nat.le_trans ih (by simp)
  | alone => exact Nat.le_refl _
  | incomplete L r hr => rw [extract_eq, extractPass_incomplete cfg hr]
  | complete L p h l x rest hp ihRest ihResync =>
    rw [extract_eq, extractPass_layout cfg hp]
    by_cases hx : x = 0x03#8 ∧ crc16 cfg p = be16 h l
    · rw [if_pos hx]
      exact Nat.le_trans ihRest (by simp; omega)
    · rw [if_neg hx]
      exact Nat.le_trans ihResync (by simp)

/-- `RA.EXTRACT` keeps the RawBuffer's form (R22). -/
theorem wf_extract (cfg : Config) {cap : RbCap} {rbuf : Bytes} (h : Memory.wf cap rbuf = true) :
    Memory.wf cap (extract cfg rbuf).2 = true :=
  Memory.wf_of_length_le (extract_length_le cfg rbuf) h

end Sys2Proof.Laws
end

