-- ==== Sys2Proof/Tests/Slice0.lean ====
section
/-! SUPPORT. Tests of the model. Expected values are from 95_test_vectors.md and the rules' own examples, named at each test; the witnesses show that the hypotheses of the statements can be met. -/

namespace Sys2Proof.Tests

open Sys2Proof.Machine

/-! ## Helpers -/

/-- An engine with an empty port. -/
def st (crcReg : Word16) (rbuf : Bytes) : State := ⟨⟨crcReg, rbuf⟩, [], []⟩

/-- An engine whose host has these inputs to hand over. -/
def given (input : List PortInput) (s : State) : State := { s with input := input }

/-- The state a step ends in, if it ends in one. -/
def after (o : Host.Outcome State Fault Refusal) : Option State :=
  match o with
  | .next s => some s
  | .fault _ => none
  | .refused _ => none

/-- The instruction a command decodes to, if it does. -/
def decoded (c : Command) : Option Instr :=
  match decode c with
  | .ok i => some i
  | .error _ => none

/-- The parameters with `RB_CAP = 260` (AP-03, P4). -/
def cap260 : Config := ⟨0x0000#16, 0x0000#16, .finite 0⟩

/-- The parameters of the 0xFFFF column of the CRC vectors. -/
def ccittFalse : Config := ⟨0xFFFF#16, 0x0000#16, .unbounded⟩

/-- The frame of FE-02, `02 01 04 40 84 03`. -/
def frame04 : Bytes := [0x02#8, 0x01#8, 0x04#8, 0x40#8, 0x84#8, 0x03#8]

/-! ## Encoding: the opcode bytes of R69, bit by bit (unit in `op[7:4]`, function in `op[3:0]`, R68) -/

theorem test_decode_crcUpdate : decoded ⟨0b00010001#8, [.byte 0x31#8]⟩ = some (.crcUpdate 0x31#8) := by decide
theorem test_decode_crcCompute : decoded ⟨0b00010011#8, [.seq [0x04#8]]⟩ = some (.crcCompute [0x04#8]) := by decide
theorem test_decode_frmEncodeSmall :
    decoded ⟨0b00100000#8, [.seq [0x04#8]]⟩ = some (.frmEncode .small [0x04#8]) := by decide
theorem test_decode_frmEncodeLarge :
    decoded ⟨0b00100001#8, [.seq [0x04#8]]⟩ = some (.frmEncode .large [0x04#8]) := by decide
theorem test_decode_frmValidate :
    decoded ⟨0b00100011#8, [.seq [0x04#8], .word16 0x4084#16]⟩ = some (.frmValidate [0x04#8] 0x4084#16) := by decide
theorem test_decode_raAppend : decoded ⟨0b00110000#8, [.seq [0x02#8]]⟩ = some (.raAppend [0x02#8]) := by decide
theorem test_decode_rest :
    decoded ⟨0b00010000#8, []⟩ = some .crcInit ∧ decoded ⟨0b00010010#8, []⟩ = some .crcRead ∧
    decoded ⟨0b00100010#8, [.seq []]⟩ = some (.frmDecode []) ∧ decoded ⟨0b00110001#8, []⟩ = some .raExtract ∧
    decoded ⟨0b00110010#8, []⟩ = some .raReset := by decide

/-- P5 row 5: opcode 0x40 is illegal. -/
theorem test_decode_illegal : decoded ⟨0x40#8, []⟩ = none := by decide

theorem test_decodeTableWord :
    decodeTableWord 8 0x11 = some (.crcUpdate 0x00#8) ∧ decodeTableWord 8 0x21 = some (.frmEncode .large []) ∧
    decodeTableWord 8 0x23 = some (.frmValidate [] 0x0000#16) ∧ decodeTableWord 8 0x14 = none := by decide

/-! ## Well-formedness: one ill-formed command for each check (R71) -/

theorem smoke_illegal_opcode : (Command.mk 0x33#8 []).wellFormed = false := by decide
theorem smoke_N_with_an_operand : (Command.mk 0x31#8 [.byte 0x00#8]).wellFormed = false := by decide
theorem smoke_B_without_operand : (Command.mk 0x11#8 []).wellFormed = false := by decide
theorem smoke_B_with_a_sequence : (Command.mk 0x11#8 [.seq [0x00#8]]).wellFormed = false := by decide
theorem smoke_S_without_sequence : (Command.mk 0x30#8 []).wellFormed = false := by decide
theorem smoke_S_with_a_surplus : (Command.mk 0x30#8 [.seq [], .seq []]).wellFormed = false := by decide
theorem smoke_SV_without_word16 : (Command.mk 0x23#8 [.seq []]).wellFormed = false := by decide
theorem smoke_SV_swapped : (Command.mk 0x23#8 [.word16 0x0000#16, .seq []]).wellFormed = false := by decide
theorem smoke_accepts_each_format :
    (Command.mk 0x10#8 []).wellFormed = true ∧ (Command.mk 0x11#8 [.byte 0xFF#8]).wellFormed = true ∧
    (Command.mk 0x21#8 [.seq []]).wellFormed = true ∧
    (Command.mk 0x23#8 [.seq [], .word16 0xFFFF#16]).wellFormed = true := by decide

/-! ## The CRC generator -/

/-- R103's example. -/
theorem test_crcInit : after (exec .crcInit (st 0x31C3#16 [0x02#8])) =
    some { st 0x0000#16 [0x02#8] with responses := [.ok .none] } := by decide

/-- P1 row 2 and row 9. -/
theorem test_crcUpdate : (after (exec (.crcUpdate 0x31#8) (st 0x0000#16 []))).map (·.crcReg) = some 0x2672#16 ∧
    (after (exec (.crcUpdate 0x38#8) (st 0x86D6#16 []))).map (·.crcReg) = some 0x9015#16 := by decide

/-- P1 row 11: the register is returned and kept. -/
theorem test_crcRead : after (exec .crcRead (st 0x31C3#16 [])) =
    some { st 0x31C3#16 [] with responses := [.ok (.word16 0x31C3#16)] } := by decide

/-- CRC-07; `crc_reg` is not touched (R106). -/
theorem test_crcCompute : after (exec (.crcCompute [0x04#8]) (st 0x1234#16 [])) =
    some { st 0x1234#16 [] with responses := [.ok (.word16 0x4084#16)] } := by decide

/-- CRC-01, CRC-10 and CRC-12 with `CRC_INIT = 0xFFFF`. -/
theorem test_crc16_ffff : crc16 ccittFalse [] = 0xFFFF#16 ∧ crc16 ccittFalse [0x41#8] = 0xB915#16 ∧
    crc16 ccittFalse [0x01#8, 0x02#8] = 0x0E7C#16 := by decide +kernel

/-! ## The framer -/

/-- FE-04: no escaping. -/
theorem test_frmEncode_small : (after (exec (.frmEncode .small [0x02#8, 0x03#8, 0x02#8]) (st 0#16 []))).map
    (·.responses) = some [.ok (.bytes [0x02#8, 0x03#8, 0x02#8, 0x03#8, 0x02#8, 0x1B#8, 0x71#8, 0x03#8])] := by decide +kernel

/-- FE-08 and FE-10: the length check, and the mode check before it. -/
theorem test_frmEncode_errors :
    (after (exec (.frmEncode .small (List.replicate 256 0#8)) (st 0#16 []))).map (·.responses) =
      some [.error (.lengthOverflow 256)] ∧
    (after (exec (.frmEncode .large (List.replicate 300 0#8)) (st 0#16 []))).map (·.responses) =
      some [.error .unsupportedVariant] := by decide +kernel

/-- FD-02 and FD-03: exactly `L + 4` bytes are enough, and the trailer is not checked. -/
theorem test_frmDecode_ok :
    (after (exec (.frmDecode [0x02#8, 0x00#8, 0x00#8, 0x00#8]) (st 0#16 []))).map (·.responses) =
      some [.ok (.payloadCrc [] 0x0000#16)] ∧
    (after (exec (.frmDecode [0x02#8, 0x01#8, 0x04#8, 0x40#8, 0x84#8, 0xFF#8]) (st 0#16 []))).map (·.responses) =
      some [.ok (.payloadCrc [0x04#8] 0x4084#16)] := by decide

/-- FD-06, FD-07 and FD-09. -/
theorem test_frmDecode_malformed :
    (after (exec (.frmDecode [0x02#8, 0x01#8, 0x04#8, 0x40#8]) (st 0#16 []))).map (·.responses) =
      some [.error (.malformedCandidate 4)] ∧
    (after (exec (.frmDecode (0x03#8 :: frame04.tail)) (st 0#16 []))).map (·.responses) =
      some [.error (.malformedCandidate 6)] ∧
    (after (exec (.frmDecode [0x02#8]) (st 0#16 []))).map (·.responses) =
      some [.error (.malformedCandidate 1)] := by decide

/-- FV-02 and FV-04: the byte-swapped CRC does not match. -/
theorem test_frmValidate :
    (after (exec (.frmValidate [0x04#8] 0x4084#16) (st 0#16 []))).map (·.responses) = some [.ok (.bool true)] ∧
    (after (exec (.frmValidate [0x04#8] 0x8440#16) (st 0#16 []))).map (·.responses) = some [.ok (.bool false)] := by
  decide

/-! ## The reassembler -/

/-- AP-01. -/
theorem test_raAppend : after (exec (.raAppend [0x04#8, 0x40#8]) (st 0#16 [0x02#8, 0x01#8])) =
    some { st 0#16 [0x02#8, 0x01#8, 0x04#8, 0x40#8] with responses := [.ok .none] } := by decide

/-- AP-03: with `RB_CAP = 260`, two bytes on 259 do not fit, and nothing is added. -/
theorem test_raAppend_overflow :
    perform cap260 (.raAppend [0x00#8, 0x00#8]) ⟨0#16, List.replicate 259 0x02#8⟩ =
      (⟨0#16, List.replicate 259 0x02#8⟩, .error (.bufferOverflow 261)) := by decide +kernel

/-- RA-07: the real frame starts inside the spurious candidate's span. -/
theorem test_raExtract_resync :
    after (exec .raExtract (st 0#16 ([0x02#8, 0x01#8, 0x00#8] ++ frame04))) =
      some { st 0#16 [] with responses := [.ok (.frames [⟨.small, [0x04#8], 0x4084#16⟩])] } := by decide

/-- RA-10 and RA-14 in one buffer: a bad CRC, a good frame, an incomplete one. -/
theorem test_raExtract_mixed :
    extract Config.wvfe ([0x02#8, 0x01#8, 0x04#8, 0x41#8, 0x84#8, 0x03#8] ++ frame04 ++ [0x02#8, 0x09#8, 0x31#8]) =
      ([⟨.small, [0x04#8], 0x4084#16⟩], [0x02#8, 0x09#8, 0x31#8]) := by decide

/-- AP-05. -/
theorem test_raReset : after (exec .raReset (st 0x1234#16 [0x02#8, 0x09#8, 0x31#8])) =
    some { st 0x1234#16 [] with responses := [.ok .none] } := by decide

/-! ## The step and the port -/

/-- P5 row 5. -/
theorem test_step_illegal : after (step (given [.command ⟨0x40#8, []⟩] (st 0x4084#16 []))) =
    some { st 0x4084#16 [] with responses := [.error (.illegalCommand 0x40#8)] } := by decide

/-- R200. -/
theorem test_step_blockReset : after (step (given [.blockReset] (st 0x31C3#16 [0x02#8]))) =
    some (st 0x0000#16 []) := by decide

/-- The instruction `withFetchWord` places is the first one after reset. -/
theorem test_withFetchWord : after (step (State.reset.withFetchWord 8 0x30)) =
    some { State.reset with responses := [.ok .none] } := by decide

/-- R72: `CRC.UPDATE 0x3B` as it is written. -/
theorem test_asm : asm (.crcUpdate 0x3B#8) = "CRC.UPDATE 0x3B".toList := by decide

/-- R72's two pseudo-instructions, expanded. -/
theorem test_pseudo : raFeed [0x02#8] = [.raAppend [0x02#8], .raExtract] ∧
    crcStream [0x31#8] = [.crcInit, .crcUpdate 0x31#8, .crcRead] := by decide

/-- R209: a candidate with a wrong trailer decodes and is no frame. -/
theorem test_decode_is_no_frame_check :
    decodeCandidate [0x02#8, 0x01#8, 0x04#8, 0x40#8, 0x84#8, 0xFF#8] = some ([0x04#8], 0x4084#16) ∧
    isFrame Config.wvfe [0x02#8, 0x01#8, 0x04#8, 0x40#8, 0x84#8, 0xFF#8] = false := by decide

/-! ## Witnesses: for each statement with hypotheses, concrete values that meet them together -/

theorem witness_StepPerformsTheDecodedCommand :
    (given [.command ⟨0x12#8, []⟩] (st 0x31C3#16 [])).input = .command ⟨0x12#8, []⟩ :: [] ∧
    decode ⟨0x12#8, []⟩ = .ok .crcRead :=
  ⟨rfl, Laws.EncodeDecodes.crcRead⟩

theorem witness_IllegalCommandsAreAnswered :
    (given [.command ⟨0x40#8, []⟩] (st 0#16 [])).input = .command ⟨0x40#8, []⟩ :: [] ∧
    (Command.mk 0x40#8 []).wellFormed = false ∧ (Command.mk 0x30#8 []).wellFormed = false := by decide

theorem witness_BlockResetLeaves :
    (given [.blockReset, .blockReset] (st 0x31C3#16 [0x02#8])).input = .blockReset :: [.blockReset] := rfl

theorem witness_PortWithoutACommand : (st 0x31C3#16 [0x02#8]).input = [] ∧
    (given [.blockReset] (st 0x31C3#16 [0x02#8])).input = .blockReset :: [] := ⟨rfl, rfl⟩

theorem witness_EveryCommandIsTotal :
    (given [.command ⟨0x00#8, []⟩] (st 0#16 [])).input = .command ⟨0x00#8, []⟩ :: [] := rfl

/-- One command for each status: P5 rows 2, 4, 5 and 6, and a chunk that fits; missing (R71's example), surplus and
swapped operands. -/
theorem witness_ErrorConditions :
    (after (step (given [.command ⟨0x21#8, [.seq [0x04#8]]⟩] (st 0#16 [])))).map (·.responses) =
      some [.error .unsupportedVariant] ∧
    (after (step (given [.command ⟨0x20#8, [.seq (List.replicate 256 0#8)]⟩] (st 0#16 [])))).map (·.responses) =
      some [.error (.lengthOverflow 256)] ∧
    (after (step (given [.command ⟨0x22#8, [.seq [0x02#8, 0x01#8, 0x04#8, 0x40#8]]⟩] (st 0#16 [])))).map
      (·.responses) = some [.error (.malformedCandidate 4)] ∧
    (after (step (given [.command ⟨0x40#8, []⟩] (st 0#16 [])))).map (·.responses) =
      some [.error (.illegalCommand 0x40#8)] ∧
    (after (step (given [.command ⟨0x30#8, []⟩] (st 0#16 [])))).map (·.responses) =
      some [.error (.illegalCommand 0x30#8)] ∧
    (after (step (given [.command ⟨0x12#8, [.byte 0x00#8]⟩] (st 0#16 [])))).map (·.responses) =
      some [.error (.illegalCommand 0x12#8)] ∧
    (after (step (given [.command ⟨0x23#8, [.word16 0x4084#16, .seq [0x04#8]]⟩] (st 0#16 [])))).map
      (·.responses) = some [.error (.illegalCommand 0x23#8)] ∧
    (after (step (given [.command ⟨0x30#8, [.seq [0x02#8]]⟩] (st 0#16 [])))).map (·.responses) =
      some [.ok .none] := by decide +kernel

/-- AP-03 and the rule's overflow status 0x04, under `RB_CAP = 260`. The engine's own `RB_CAP` is open (log entry 3), so
no chunk is known to overflow it. -/
theorem witness_ErrorConditions_overflow :
    (perform cap260 (.raAppend [0x00#8, 0x00#8]) ⟨0#16, List.replicate 259 0x02#8⟩).2 =
      .error (.bufferOverflow 261) ∧
    (Response.error (.bufferOverflow 261)).status = 0x04#8 := by decide +kernel

theorem witness_ErrorsChangeNoState :
    step (given [.command ⟨0x40#8, []⟩] (st 0x4084#16 [])) =
      .next { st 0x4084#16 [] with responses := [.error (.illegalCommand 0x40#8)] } ∧
    (Response.error (.illegalCommand 0x40#8)).status ≠ 0x00#8 :=
  ⟨rfl, by decide⟩

theorem witness_NothingElsePersists :
    (st 0x31C3#16 []).toEngine = (given [.blockReset] (st 0x31C3#16 [])).toEngine ∧
    (∃ t, exec .crcRead (st 0x31C3#16 []) = .next t) ∧
    (∃ t, exec .crcRead (given [.blockReset] (st 0x31C3#16 [])) = .next t) :=
  ⟨rfl, ⟨_, rfl⟩, ⟨_, rfl⟩⟩

theorem witness_RunPerformsTheProgramInOrder :
    (given (issue (raFeed frame04)) (st 0#16 [])).input = issue (raFeed frame04) ++ [] := by decide

/-- FV-03's payload byte, its last bit and its first, and the CRC's. -/
theorem witness_SingleBitErrorsAreDetected :
    crc16 Config.wvfe [0x04#8] = 0x4084#16 ∧ 0 < ([0x04#8] : Bytes).length ∧ 7 < 8 ∧ 15 < 16 ∧
    flipBit [0x04#8] 0 0 = [0x05#8] := by decide

theorem witness_CrcPropertiesUnderD1 :
    Config.wvfe.crcInit = 0x0000#16 ∧ Config.wvfe.crcXorOut = 0x0000#16 ∧
    ccittFalse.crcInit = 0xFFFF#16 ∧ ccittFalse.crcXorOut = 0x0000#16 := ⟨rfl, rfl, rfl, rfl⟩

theorem witness_CrcRegisterWritersAndReaders :
    (∃ t, exec .raReset (st 0x31C3#16 [0x02#8]) = .next t) ∧ Instr.raReset ≠ .crcInit ∧
    (∀ b, Instr.raReset ≠ .crcUpdate b) ∧ Instr.raReset ≠ .crcRead :=
  ⟨⟨_, rfl⟩, by decide, (fun _ h => by cases h), by decide⟩

/-- The two sides of the length limit. -/
theorem witness_FrmEncodeResult :
    255 < (List.replicate 256 0#8).length ∧ (List.replicate 255 0#8).length ≤ 255 := by
  rw [List.length_replicate, List.length_replicate]; decide

theorem witness_EncodedFrameIsValid : Responds (.frmEncode .small [0x04#8]) (st 0#16 []) (.ok (.bytes frame04)) :=
  ⟨{ st 0#16 [] with responses := [.ok (.bytes frame04)] }, by rfl, rfl⟩

/-- Each malformed condition at its boundary, and a candidate of exactly `L + 4` bytes. -/
theorem witness_FrmDecodeResult :
    ([0x02#8] : Bytes).length < 2 ∧ (0x03#8 :: frame04.tail)[0]? ≠ some 0x02#8 ∧
    ([0x02#8, 0x01#8, 0x04#8, 0x40#8] : Bytes)[1]? = some 0x01#8 ∧
    ([0x02#8, 0x01#8, 0x04#8, 0x40#8] : Bytes).length < (0x01#8).toNat + 4 ∧
    ([] : Bytes).length = (0x00#8).toNat ∧
    ([0x02#8, 0x00#8] ++ [] ++ [0x00#8, 0x00#8] ++ [] : Bytes) = [0x02#8, 0x00#8, 0x00#8, 0x00#8] ∧
    ¬ (frame04.length < 2) ∧ frame04[0]? = some 0x02#8 ∧ frame04[1]? = some 0x01#8 ∧
    ¬ (frame04.length < (0x01#8).toNat + 4) := by decide

theorem witness_EncodeDecodeRoundTrip : ([0x04#8] : Bytes).length ≤ 255 ∧
    (perform Config.wvfe (.frmEncode .small [0x04#8]) ⟨0#16, []⟩).2 = .ok (.bytes frame04) := by decide

/-- AP-04 and AP-03: 260 bytes are within `RB_CAP = 260`, 261 are not. -/
theorem witness_RaAppendAllOrNothing :
    WithinCapacity cap260.rbCap ((List.replicate 259 0x02#8).length + ([0x00#8] : Bytes).length) ∧
    ¬ WithinCapacity cap260.rbCap ((List.replicate 259 0x02#8).length + ([0x00#8, 0x00#8] : Bytes).length) := by
  rw [List.length_replicate]
  exact ⟨Nat.le_refl 260, show ¬ 259 + 2 ≤ 260 + 0 by omega⟩

theorem witness_RaAppendResult :
    (st 0#16 (List.replicate 259 0x02#8)).rbuf.length + ([0x00#8] : Bytes).length ≤ 260 := by
  rw [show (st 0#16 (List.replicate 259 0x02#8)).rbuf.length = 259 from List.length_replicate]
  decide

theorem witness_FedChunksNeverOverflow : quiescent [0x02#8, 0x09#8] = true ∧
    ∀ c ∈ ([[0x31#8], [0x32#8]] : List Bytes), WithinCapacity cap260.rbCap (c.length + 259) := by
  simp [WithinCapacity, cap260, quiescent, byteAt, frameLength]

/-- One buffer for each label, at the boundary of its condition. -/
theorem witness_ExtractFollowsTheLoop :
    (0x02#8 : Byte) ∉ ([0x55#8, 0xAA#8] : Bytes) ∧
    (0x02#8 :: 0x00#8 :: [0x00#8, 0x00#8] : Bytes).length < (0x00#8).toNat + 4 + 1 ∧
    ([0x04#8] : Bytes).length = (0x01#8).toNat ∧ (0x04#8 : Byte) ≠ 0x03#8 ∧
    crc16 Config.wvfe [0x04#8] = be16 0x40#8 0x84#8 ∧ crc16 Config.wvfe [0x04#8] ≠ be16 0x41#8 0x84#8 := by decide

theorem witness_CandidatesAreJudgedByIsFrame :
    (0x01#8).toNat + 3 ≤ ([0x04#8, 0x40#8, 0x84#8, 0x03#8] : Bytes).length ∧
    isFrame Config.wvfe (frame04.take ((0x01#8).toNat + 5)) = true := by decide

theorem witness_ExtractLeavesQuiescent : ∃ t, exec .raExtract (st 0#16 frame04) = .next t := ⟨_, rfl⟩

theorem witness_QuiescenceIsKept :
    (∃ t, exec .raExtract (st 0#16 frame04) = .next t) ∧ (∃ t, exec .raReset (st 0#16 frame04) = .next t) ∧
    (∃ t, step (given [.blockReset] (st 0#16 frame04)) = .next t) ∧
    (∀ c, Instr.crcInit ≠ .raAppend c) ∧ (∃ t, exec .crcInit (st 0#16 [0x02#8, 0x00#8, 0x00#8, 0x00#8]) = .next t) ∧
    quiescent [0x02#8, 0x00#8, 0x00#8, 0x00#8] = true :=
  ⟨⟨_, rfl⟩, ⟨_, rfl⟩, ⟨_, rfl⟩, (fun _ h => by cases h), ⟨_, rfl⟩, by decide⟩

/-- FV-03's frame is accepted, and rejected with another trailer or another CRC; `len(rbuf) + 1` passes. The frame's
two passes are (f) and (a). -/
theorem witness_ExtractTerminates :
    extractPass Config.wvfe frame04 = .accept ⟨.small, [0x04#8], 0x4084#16⟩ [] ∧
    extractPass Config.wvfe [0x02#8, 0x01#8, 0x04#8, 0x40#8, 0x84#8, 0x04#8] =
      .reject [0x01#8, 0x04#8, 0x40#8, 0x84#8, 0x04#8] ∧
    extractPass Config.wvfe [0x02#8, 0x01#8, 0x04#8, 0x41#8, 0x84#8, 0x03#8] =
      .reject [0x01#8, 0x04#8, 0x41#8, 0x84#8, 0x03#8] ∧
    frame04.length + 1 ≤ 7 ∧ extractPasses Config.wvfe 7 frame04 = 2 := by decide

theorem witness_FragmentedFrameComesOutOnce :
    isFrame Config.wvfe frame04 = true ∧
    ([[0x02#8], [], [0x01#8, 0x04#8]] : List Bytes).flatten ++ [0x40#8, 0x84#8, 0x03#8] = frame04 ∧
    ([0x40#8, 0x84#8, 0x03#8] : Bytes) ≠ [] ∧ (st 0#16 []).rbuf = [] := by decide

theorem witness_BackToBackFramesComeOutInOrder :
    (∀ f ∈ [frame04, [0x02#8, 0x00#8, 0x00#8, 0x00#8, 0x03#8]], isFrame Config.wvfe f = true) ∧
    WithinCapacity cap260.rbCap [frame04, [0x02#8, 0x00#8, 0x00#8, 0x00#8, 0x03#8]].flatten.length :=
  ⟨by decide, by simp [WithinCapacity, cap260, frame04]⟩

/-- RA-07's buffer, with and without a byte to come; and the same buffer with 260 bytes from its spurious marker. -/
theorem witness_GarbageDoesNotHideAFrame :
    isFrame Config.wvfe frame04 = true ∧
    SpuriousMarkersResolved Config.wvfe [0x02#8, 0x01#8, 0x00#8] (frame04 ++ []) ∧
    SpuriousMarkersResolved Config.wvfe [0x02#8, 0x01#8, 0x00#8] (frame04 ++ [] ++ [0x55#8]) ∧
    (∀ j, j < ([0x02#8, 0x01#8, 0x00#8] : Bytes).length → byteAt [0x02#8, 0x01#8, 0x00#8] j = 0x02#8 →
      j + 260 ≤ ([0x02#8, 0x01#8, 0x00#8] ++ frame04 ++ List.replicate 250 0#8 ++ [0x00#8]).length ∧
      isFrame Config.wvfe (slice ([0x02#8, 0x01#8, 0x00#8] ++ frame04 ++ List.replicate 250 0#8 ++ [0x00#8]) j
        (j + (byteAt ([0x02#8, 0x01#8, 0x00#8] ++ frame04 ++ List.replicate 250 0#8 ++ [0x00#8])
          (j + 1)).toNat + 5)) = false) := by
  unfold SpuriousMarkersResolved
  decide +kernel

theorem witness_FalseAcceptanceIsPossible : isFrame Config.wvfe frame04 = true ∧
    ([0x04#8] : Bytes).length = (0x01#8).toNat := by decide

/-- RA-08 and a buffer of 260 bytes. -/
theorem witness_SpuriousMarkerHoldsBack : frame04.length + 2 < (0x55#8).toNat + 5 ∧
    260 ≤ (List.replicate 260 0x02#8).length := by
  rw [List.length_replicate]; decide

theorem witness_LargeFramesAreNotRecognised : (0x03#8 : Byte) ≠ 0x02#8 ∧
    ⟨.small, [0x04#8], 0x4084#16⟩ ∈ (extract Config.wvfe frame04).1 := by decide

theorem witness_RbufChangesOnlyAtItsEnds : ∃ t, exec (.raAppend [0x02#8]) (st 0#16 []) = .next t := ⟨_, rfl⟩

theorem witness_RaFeedRunsBothCommands :
    WithinCapacity cap260.rbCap (([] : Bytes).length + frame04.length) ∧
    ¬ WithinCapacity cap260.rbCap ((List.replicate 259 0x02#8).length + ([0x00#8, 0x00#8] : Bytes).length) := by
  rw [List.length_replicate]
  exact ⟨show 0 + 6 ≤ 260 + 0 by omega, show ¬ 259 + 2 ≤ 260 + 0 by omega⟩

theorem witness_PureCommandsFrame : ∃ t, exec (.frmValidate [0x04#8] 0x4084#16) (st 0#16 [0x02#8]) = .next t :=
  ⟨_, rfl⟩

theorem witness_CrcCommandsFrame : ∃ t, exec (.crcUpdate 0x31#8) (st 0#16 [0x02#8]) = .next t := ⟨_, rfl⟩

theorem witness_RaAppendFrame :
    (∃ t, exec (.raAppend [0x02#8]) (st 0#16 [0x55#8]) = .next t) ∧
    (perform cap260 (.raAppend [0x02#8]) ⟨0#16, [0x55#8]⟩).2.status = 0x00#8 ∧
    (perform cap260 (.raAppend [0x00#8, 0x00#8]) ⟨0#16, List.replicate 259 0x02#8⟩).2.status ≠ 0x00#8 :=
  ⟨⟨_, rfl⟩, by decide, by decide +kernel⟩

theorem witness_DroppingCommandsFrame : (∃ t, exec .raExtract (st 0#16 frame04) = .next t) ∧
    ∃ t, exec .raReset (st 0#16 frame04) = .next t := ⟨⟨_, rfl⟩, ⟨_, rfl⟩⟩

theorem witness_StepKeepsTheCapacity : (given [.command ⟨0x31#8, []⟩] (st 0#16 frame04)).Inv ∧
    ∃ t, step (given [.command ⟨0x31#8, []⟩] (st 0#16 frame04)) = .next t :=
  ⟨by unfold State.Inv; decide, ⟨_, rfl⟩⟩

theorem witness_StepKeepsResponsesSound :
    State.Sound { st 0#16 frame04 with responses := [.ok (.frames [⟨.small, [0x04#8], 0x4084#16⟩])] } ∧
    ∃ t, step { st 0#16 frame04 with responses := [.ok (.frames [⟨.small, [0x04#8], 0x4084#16⟩])] } = .next t :=
  ⟨by unfold State.Sound; decide, ⟨_, rfl⟩⟩

end Sys2Proof.Tests
end

section
/-! PROOFS. The scope family (00_scope.md, 20_memory.md): words are big-endian, and a step performs the decoded
command. -/

namespace Sys2Proof.Proofs

open Sys2Proof.Machine

/-! ## Bytes and words as numbers (R9, R44) -/

theorem toNat_zext16 (b : Byte) : (zext16 b).toNat = b.toNat :=
  BitVec.toNat_setWidth_of_le (by decide)

theorem toNat_be16 (a b : Byte) : (be16 a b).toNat = 256 * a.toNat + b.toNat := by
  have hfits : a.toNat <<< 8 < 2 ^ 16 := by rw [Nat.shiftLeft_eq]; omega
  calc (be16 a b).toNat
    _ = a.toNat <<< 8 ||| b.toNat := by
      rw [be16, BitVec.toNat_or, BitVec.toNat_shiftLeft, toNat_zext16, toNat_zext16, Nat.mod_eq_of_lt hfits]
    _ = a.toNat <<< 8 + b.toNat := (Nat.shiftLeft_add_eq_or_of_lt b.isLt a.toNat).symm
    _ = 256 * a.toNat + b.toNat := by rw [Nat.shiftLeft_eq, Nat.mul_comm]

theorem toNat_hi (v : Word16) : (hi v).toNat = v.toNat / 256 := by
  rw [hi, BitVec.extractLsb'_toNat, Nat.shiftRight_eq_div_pow]
  omega

theorem toNat_lo (v : Word16) : (lo v).toNat = v.toNat % 256 := by
  rw [lo, BitVec.extractLsb'_toNat, Nat.shiftRight_zero]

theorem be16_hi_lo (v : Word16) : be16 (hi v) (lo v) = v := by
  apply BitVec.eq_of_toNat_eq
  rw [toNat_be16, toNat_hi, toNat_lo, Nat.div_add_mod]

/-- Settles O5, from the values of `be16`, `hi` and `lo` as numbers. -/
theorem wordsAreBigEndian : Obligations.WordsAreBigEndian :=
  ⟨toNat_be16, fun v => ⟨be16_hi_lo v, toNat_hi v, toNat_lo v⟩⟩

/-! ## What a step does with the next command (R5, R48) -/

theorem takeInput_of_input_eq_cons {s : State} {x : PortInput} {rest : List PortInput} (h : s.input = x :: rest) :
    takeInput s = some (x, { s with input := rest }) :=
  (takeInput_eq_some_iff s _ x).mpr ⟨rest, h, rfl⟩

/-- A step on a command that decodes performs it, whole, at the state with that command taken. -/
theorem step_of_decode_ok {s : State} {c : Command} {rest : List PortInput} {i : Instr}
    (hin : s.input = .command c :: rest) (hdec : decode c = .ok i) :
    step s = exec i { s with input := rest } := by
  simp only [step, takeInput_of_input_eq_cons hin, hdec]

/-- Settles O6: the command is taken from the port, decoded, and performed. -/
theorem stepPerformsTheDecodedCommand : Obligations.StepPerformsTheDecodedCommand :=
  fun _ _ _ _ => step_of_decode_ok

end Sys2Proof.Proofs
end

section
/-! PROOFS. The state family (10_state.md): what a command and a step do to each part of the state, the invariants
every step keeps, and what a response can depend on. -/

namespace Sys2Proof.Proofs

open Sys2Proof.Machine Sys2Proof.Laws

/-! ## What a step and a command leave of the state (R5, R20, R48) -/

/-- The engine after a command is the one `perform` leaves; no other part of the state is read. -/
theorem toEngine_of_exec_eq_next {i : Instr} {s t : State} (h : exec i s = .next t) :
    t.toEngine = (perform Config.wvfe i s.toEngine).1 := by
  rw [(exec_eq_next_iff i s t).mp h]

theorem input_of_exec_eq_next {i : Instr} {s t : State} (h : exec i s = .next t) : t.input = s.input := by
  rw [(exec_eq_next_iff i s t).mp h]

theorem responses_of_exec_eq_next {i : Instr} {s t : State} (h : exec i s = .next t) :
    t.responses = s.responses ++ [(perform Config.wvfe i s.toEngine).2] := by
  rw [(exec_eq_next_iff i s t).mp h]

/-- A step on a block reset leaves the reset engine (R200). -/
theorem step_of_blockReset {s : State} {rest : List PortInput} (hin : s.input = .blockReset :: rest) :
    step s = .next ⟨Engine.reset Config.wvfe, rest, s.responses⟩ := by
  simp only [step, takeInput_of_input_eq_cons hin, blockReset]

/-- A step on a command that does not decode answers it and keeps the engine (R171). -/
theorem step_of_decode_error {s : State} {c : Command} {rest : List PortInput} {err : DecodeError}
    (hin : s.input = .command c :: rest) (hdec : decode c = .error err) :
    step s = .next ⟨s.toEngine, rest, s.responses ++ [.error (illegalCommandError err)]⟩ := by
  simp only [step, takeInput_of_input_eq_cons hin, hdec, rejectCommand, commit, raise_fst, raise_snd]

/-- Everything a step can do to the engine and the responses: nothing, block reset, one command performed, or one
command refused. -/
theorem step_cases {s t : State} (h : step s = .next t) :
    (s.input = [] ∧ t = s) ∨
    (t.toEngine = Engine.reset Config.wvfe ∧ t.responses = s.responses) ∨
    (∃ i, t.toEngine = (perform Config.wvfe i s.toEngine).1 ∧
      t.responses = s.responses ++ [(perform Config.wvfe i s.toEngine).2]) ∨
    (∃ err, t.toEngine = s.toEngine ∧ t.responses = s.responses ++ [.error err]) := by
  match hin : s.input with
  | [] =>
    simp only [step, (takeInput_eq_none_iff s).mpr hin, idle] at h
    cases h
    exact .inl ⟨rfl, rfl⟩
  | .blockReset :: rest =>
    rw [step_of_blockReset hin] at h
    cases h
    exact .inr (.inl ⟨rfl, rfl⟩)
  | .command c :: rest =>
    cases hdec : decode c with
    | ok i =>
      rw [step_of_decode_ok hin hdec] at h
      have hEngine := toEngine_of_exec_eq_next h
      have hResponses := responses_of_exec_eq_next h
      exact .inr (.inr (.inl ⟨i, hEngine, hResponses⟩))
    | error err =>
      rw [step_of_decode_error hin hdec] at h
      cases h
      exact .inr (.inr (.inr ⟨_, rfl, rfl⟩))

/-- `crc_reg` is written by `CRC.INIT` and `CRC.UPDATE` only (R21). -/
theorem perform_crcReg_of_ne (cfg : Config) {i : Instr} (e : Engine) (hInit : i ≠ .crcInit)
    (hUpdate : ∀ b, i ≠ .crcUpdate b) : (perform cfg i e).1.crcReg = e.crcReg := by
  obtain ⟨hi, -⟩ | ⟨b, hi, -⟩ | ⟨c, -, -, he⟩ | ⟨-, he⟩ | ⟨-, he⟩ | he := perform_engine_cases cfg i e
  · exact absurd hi hInit
  · exact absurd hi (hUpdate b)
  · rw [he]; rfl
  · rw [he]; rfl
  · rw [he]; rfl
  · rw [he]

/-- `rbuf` is written by the reassembler's three commands only (R22). -/
theorem perform_rbuf_of_ne (cfg : Config) {i : Instr} (e : Engine) (hAppend : ∀ c, i ≠ .raAppend c)
    (hExtract : i ≠ .raExtract) (hReset : i ≠ .raReset) : (perform cfg i e).1.rbuf = e.rbuf := by
  obtain ⟨-, he⟩ | ⟨b, -, he⟩ | ⟨c, hi, -⟩ | ⟨hi, -⟩ | ⟨hi, -⟩ | he := perform_engine_cases cfg i e
  · rw [he]; rfl
  · rw [he]; rfl
  · exact absurd hi (hAppend c)
  · exact absurd hi hExtract
  · exact absurd hi hReset
  · rw [he]

@[simp] theorem perform_raExtract (cfg : Config) (e : Engine) : perform cfg .raExtract e =
    (e.setRbuf (extract cfg e.rbuf).2, .ok (.frames (extract cfg e.rbuf).1)) := rfl

/-! ## The loop of `RA.EXTRACT` on each shape of the RawBuffer (R142) -/

theorem extract_nil (cfg : Config) : extract cfg [] = ([], []) := rfl

theorem extract_other (cfg : Config) {b : Byte} (hb : b ≠ 0x02#8) (t : Bytes) :
    extract cfg (b :: t) = extract cfg t := by
  rw [extract_eq, extractPass_other cfg hb, ← extract_eq]

theorem extract_marker_alone (cfg : Config) : extract cfg [0x02#8] = ([], [0x02#8]) := rfl

theorem extract_incomplete (cfg : Config) {L : Byte} {r : Bytes} (h : r.length < L.toNat + 3) :
    extract cfg (0x02#8 :: L :: r) = ([], 0x02#8 :: L :: r) := by
  rw [extract_eq, extractPass_incomplete cfg h]

/-- A complete candidate with trailer and CRC is the next frame out. -/
theorem extract_accepted (cfg : Config) {L h l : Byte} {p rest : Bytes} (hp : p.length = L.toNat)
    (hc : crc16 cfg p = be16 h l) : extract cfg (layout L p h l (0x03#8 :: rest)) =
      (⟨.small, p, be16 h l⟩ :: (extract cfg rest).1, (extract cfg rest).2) := by
  rw [extract_eq, extractPass_layout cfg hp, if_pos ⟨rfl, hc⟩]

/-- A complete candidate without its trailer or its CRC loses its marker, and the scan resumes there. -/
theorem extract_rejected (cfg : Config) {L h l x : Byte} {p rest : Bytes} (hp : p.length = L.toNat)
    (hx : ¬ (x = 0x03#8 ∧ crc16 cfg p = be16 h l)) : extract cfg (layout L p h l (x :: rest)) =
      extract cfg (L :: (p ++ h :: l :: x :: rest)) := by
  rw [extract_eq, extractPass_layout cfg hp, if_neg hx]
  rfl

/-- `RA.EXTRACT` drops bytes at the front only (R23). -/
theorem extract_suffix (cfg : Config) (rbuf : Bytes) : (extract cfg rbuf).2 <:+ rbuf := by
  induction rbuf using rbuf_induction with
  | empty => exact List.suffix_refl _
  | other b t hb ih =>
    rw [extract_other cfg hb]
    exact ih.trans (List.suffix_cons b t)
  | alone => exact List.suffix_refl _
  | incomplete L r hr => rw [extract_incomplete cfg hr]
  | complete L p h l x rest hp ihRest ihResync =>
    by_cases hx : x = 0x03#8 ∧ crc16 cfg p = be16 h l
    · obtain ⟨rfl, hc⟩ := hx
      rw [extract_accepted cfg hp hc]
      exact ihRest.trans ⟨0x02#8 :: L :: (p ++ [h, l, 0x03#8]), by simp⟩
    · rw [extract_rejected cfg hp hx]
      exact ihResync.trans (List.suffix_cons _ _)

/-- A Frame whose payload's length fits the length byte and whose CRC is the payload's is as R29 says. -/
theorem frame_wf_of_crc16_eq {cfg : Config} {L : Byte} {p : Bytes} {c : Word16} (hp : p.length = L.toNat)
    (hc : crc16 cfg p = c) : Frame.wf cfg ⟨.small, p, c⟩ = true := by
  have hL : p.length ≤ 255 := by have := L.isLt; omega
  simp [Frame.wf, hL, hc]

/-- Every Frame the loop returns is as R29 says. -/
theorem extract_frames_wf (cfg : Config) (rbuf : Bytes) : ∀ f ∈ (extract cfg rbuf).1, f.wf cfg = true := by
  induction rbuf using rbuf_induction with
  | empty => simp [extract_nil]
  | other b t hb ih => rwa [extract_other cfg hb]
  | alone => simp [extract_marker_alone]
  | incomplete L r hr => simp [extract_incomplete cfg hr]
  | complete L p h l x rest hp ihRest ihResync =>
    by_cases hx : x = 0x03#8 ∧ crc16 cfg p = be16 h l
    · obtain ⟨rfl, hc⟩ := hx
      rw [extract_accepted cfg hp hc]
      exact List.forall_mem_cons.mpr ⟨frame_wf_of_crc16_eq hp hc, ihRest⟩
    · rwa [extract_rejected cfg hp hx]

/-! ## The capacity (R22, R41) -/

/-- The capacity check of the model is R22's bound. -/
theorem capHolds_iff_withinCapacity (cap : RbCap) (n : Nat) : capHolds cap n = true ↔ WithinCapacity cap n := by
  cases cap with
  | unbounded => simp [capHolds_unbounded, WithinCapacity]
  | finite extra => simp [capHolds_finite, WithinCapacity]

/-- Every command keeps `len(rbuf) ≤ RB_CAP`: an append checks it, the others make the RawBuffer no longer. -/
theorem perform_keeps_wf {cfg : Config} (i : Instr) {e : Engine} (h : Memory.wf cfg.rbCap e.rbuf = true) :
    Memory.wf cfg.rbCap (perform cfg i e).1.rbuf = true := by
  obtain ⟨-, he⟩ | ⟨b, -, he⟩ | ⟨c, -, hfits, he⟩ | ⟨-, he⟩ | ⟨-, he⟩ | he := perform_engine_cases cfg i e
  · rwa [he]
  · rwa [he]
  · rwa [he, Engine.setRbuf_rbuf, Memory.wf_bufAppend]
  · rw [he]; exact wf_extract cfg h
  · rw [he]; exact Memory.wf_bufClear _
  · rwa [he]

/-- Settles O57, by what a step can do to the engine. -/
theorem stepKeepsTheCapacity : Obligations.StepKeepsTheCapacity := by
  intro s t hs h
  unfold State.Inv at hs ⊢
  obtain ⟨-, rfl⟩ | ⟨he, -⟩ | ⟨i, he, -⟩ | ⟨err, he, -⟩ := step_cases h
  · exact hs
  · rw [he]; exact Memory.wf_reset
  · rw [he]; exact perform_keeps_wf i hs
  · rwa [he]

/-! ## Sound responses (R29, R121) -/

/-- What `FRM.ENCODE` writes for a payload of at most 255 bytes is a valid frame. -/
theorem isFrame_encodeFrame (cfg : Config) {p : Bytes} (hp : p.length ≤ 255) :
    isFrame cfg (encodeFrame cfg p) = true := by
  have hL : (BitVec.ofNat 8 p.length).toNat = p.length := by rw [BitVec.toNat_ofNat]; omega
  refine (isFrame_iff_layout cfg _).mpr ⟨_, hi (crc16 cfg p), lo (crc16 cfg p), p, hL.symm, ?_, ?_⟩
  · rw [be16_hi_lo]
  · simp [encodeFrame]

/-- Whatever the state, the response of a command is sound. -/
theorem perform_response_sound (cfg : Config) (i : Instr) (e : Engine) : (perform cfg i e).2.sound cfg = true := by
  cases i with
  | raExtract => exact List.all_eq_true.mpr (extract_frames_wf cfg e.rbuf)
  | frmEncode m p =>
    cases m with
    | large => rfl
    | small =>
      simp only [perform, performFrmEncode]
      split
      next => rfl
      next hp => exact isFrame_encodeFrame cfg (Nat.le_of_not_lt hp)
  | frmDecode cand => simp only [perform, performFrmDecode]; split <;> rfl
  | raAppend c => simp only [perform, performRaAppend]; split <;> rfl
  | crcInit | crcUpdate b | crcRead | crcCompute p | frmValidate p c | raReset => rfl

/-- Settles O58: each step adds at most one response, and it is sound. -/
theorem stepKeepsResponsesSound : Obligations.StepKeepsResponsesSound := by
  intro s t hs h
  unfold State.Sound at hs ⊢
  obtain ⟨-, rfl⟩ | ⟨-, hr⟩ | ⟨i, -, hr⟩ | ⟨err, -, hr⟩ := step_cases h
  · exact hs
  · rwa [hr]
  · rw [hr]
    exact List.forall_mem_append.mpr ⟨hs, List.forall_mem_singleton.mpr (perform_response_sound _ i _)⟩
  · rw [hr]
    exact List.forall_mem_append.mpr ⟨hs, List.forall_mem_singleton.mpr rfl⟩

/-- Settles O59, from the model's reset laws and the meaning of the capacity check. -/
theorem invariantsHoldAtReset : Obligations.InvariantsHoldAtReset :=
  ⟨Memory.wf_reset, List.forall_mem_nil _, fun cap rbuf => capHolds_iff_withinCapacity cap rbuf.length⟩

/-! ## What the new state and the response depend on (R20, R21) -/

/-- Settles O13: `perform` is a function of the engine and the command. -/
theorem nothingElsePersists : Obligations.NothingElsePersists := by
  intro i s s' t t' hs h h'
  refine ⟨?_, (perform Config.wvfe i s.toEngine).2, responses_of_exec_eq_next h, ?_⟩
  · rw [toEngine_of_exec_eq_next h, toEngine_of_exec_eq_next h', hs]
  · rw [hs]; exact responses_of_exec_eq_next h'

/-- No response but `CRC.READ`'s depends on `crc_reg`. -/
theorem perform_response_of_rbuf_eq (cfg : Config) {i : Instr} {e e' : Engine} (hi : i ≠ .crcRead)
    (h : e.rbuf = e'.rbuf) : (perform cfg i e).2 = (perform cfg i e').2 := by
  cases i with
  | crcRead => exact absurd rfl hi
  | raExtract => simp only [perform_raExtract, h]
  | raAppend c => simp only [perform, performRaAppend, h]; split <;> rfl
  | frmEncode m p =>
    cases m with
    | large => rfl
    | small => simp only [perform, performFrmEncode]; split <;> rfl
  | frmDecode cand => simp only [perform, performFrmDecode]; split <;> rfl
  | crcInit | crcUpdate b | crcCompute p | frmValidate p c | raReset => rfl

/-- The RawBuffer a command leaves depends on the one it finds, not on `crc_reg`. -/
theorem perform_rbuf_of_rbuf_eq (cfg : Config) (i : Instr) {e e' : Engine} (h : e.rbuf = e'.rbuf) :
    (perform cfg i e).1.rbuf = (perform cfg i e').1.rbuf := by
  cases i with
  | raExtract => simp only [perform_raExtract, Engine.setRbuf_rbuf, h]
  | raReset => rfl
  | raAppend c =>
    simp only [perform, performRaAppend, h]
    split
    next => rfl
    next => exact h
  | _ =>
    rw [perform_rbuf_of_ne cfg e (by simp) (by simp) (by simp),
      perform_rbuf_of_ne cfg e' (by simp) (by simp) (by simp), h]

/-- Settles O25: the writers by exclusion; the readers command by command. -/
theorem crcRegisterWritersAndReaders : Obligations.CrcRegisterWritersAndReaders := by
  refine ⟨fun i s t h hInit hUpdate => ?_, fun cfg i c c' rbuf hi =>
    ⟨perform_response_of_rbuf_eq cfg hi rfl, perform_rbuf_of_rbuf_eq cfg i rfl⟩⟩
  rw [toEngine_of_exec_eq_next h]
  exact perform_crcReg_of_ne Config.wvfe s.toEngine hInit hUpdate

/-! ## Quiescence (R24) -/

/-- The shapes of a quiescent RawBuffer: empty, the marker alone, an incomplete candidate. -/
theorem quiescent_iff (rbuf : Bytes) : quiescent rbuf = true ↔
    (rbuf = [] ∨ rbuf = [0x02#8] ∨
      ∃ (L : Byte) (r : Bytes), rbuf = 0x02#8 :: L :: r ∧ rbuf.length < L.toNat + 5) := by
  match rbuf with
  | [] => simp [quiescent]
  | [b] => simp [quiescent, byteAt]
  | b :: L :: r => simp [quiescent, byteAt, frameLength]

theorem quiescent_nil : quiescent [] = true := rfl

theorem quiescent_length_le {rbuf : Bytes} (h : quiescent rbuf = true) : rbuf.length ≤ 259 := by
  obtain rfl | rfl | ⟨L, r, -, hlen⟩ := (quiescent_iff rbuf).mp h
  · simp
  · simp
  · have := L.isLt
    omega

/-- The loop stops on quiescent RawBuffers only. -/
theorem quiescent_extract (cfg : Config) (rbuf : Bytes) : quiescent (extract cfg rbuf).2 = true := by
  induction rbuf using rbuf_induction with
  | empty => rfl
  | other b t hb ih => rwa [extract_other cfg hb]
  | alone => rfl
  | incomplete L r hr =>
    rw [extract_incomplete cfg hr]
    exact (quiescent_iff _).mpr (.inr (.inr ⟨L, r, rfl, Nat.add_lt_add_right hr 2⟩))
  | complete L p h l x rest hp ihRest ihResync =>
    by_cases hx : x = 0x03#8 ∧ crc16 cfg p = be16 h l
    · obtain ⟨rfl, hc⟩ := hx
      rwa [extract_accepted cfg hp hc]
    · rwa [extract_rejected cfg hp hx]

/-- Only `RA.APPEND` can break quiescence. -/
theorem perform_keeps_quiescent (cfg : Config) {i : Instr} {e : Engine} (hAppend : ∀ c, i ≠ .raAppend c)
    (h : quiescent e.rbuf = true) : quiescent (perform cfg i e).1.rbuf = true := by
  by_cases hExtract : i = .raExtract
  · subst hExtract; exact quiescent_extract cfg e.rbuf
  · by_cases hReset : i = .raReset
    · subst hReset; exact quiescent_nil
    · rwa [perform_rbuf_of_ne cfg e hAppend hExtract hReset]

/-- Settles O40: what the loop leaves is quiescent, an empty RawBuffer is, and no command but `RA.APPEND` leaves
anything else that is not. -/
theorem quiescenceIsKept : Obligations.QuiescenceIsKept := by
  refine ⟨quiescent_iff, fun s t h => ?_, fun s t h => ?_, fun s t rest hin h => ?_,
    fun i s t hAppend h hs => ?_, fun rbuf => quiescent_length_le⟩
  · rw [toEngine_of_exec_eq_next h]; exact quiescent_extract _ _
  · rw [toEngine_of_exec_eq_next h]; exact quiescent_nil
  · rw [step_of_blockReset hin] at h
    cases h
    exact quiescent_nil
  · rw [toEngine_of_exec_eq_next h]; exact perform_keeps_quiescent _ hAppend hs

/-! ## Frames: what each command leaves of the engine (R21, R22, R23) -/

/-- The whole chunk at the end, or nothing (R141). -/
theorem perform_raAppend_rbuf (cfg : Config) (c : Bytes) (e : Engine) :
    (perform cfg (.raAppend c) e).1.rbuf = e.rbuf ∨ (perform cfg (.raAppend c) e).1.rbuf = e.rbuf ++ c := by
  simp only [perform, performRaAppend]
  split
  next => exact .inr rfl
  next => exact .inl rfl

/-- Settles O51: at the end by `RA.APPEND`, a suffix after `RA.EXTRACT`, else empty or the same. -/
theorem rbufChangesOnlyAtItsEnds : Obligations.RbufChangesOnlyAtItsEnds := by
  intro i s t h
  rw [toEngine_of_exec_eq_next h]
  refine ⟨?_, ?_, ?_, perform_rbuf_of_ne _ _⟩
  · rintro c rfl
    exact perform_raAppend_rbuf _ c _
  · rintro rfl
    exact ⟨_, List.suffix_iff_eq_drop.mp (extract_suffix _ _)⟩
  · rintro rfl
    rfl

/-- Settles O53: none of the five is a writer of `crc_reg` or of `rbuf`. -/
theorem pureCommandsFrame : Obligations.PureCommandsFrame := by
  intro i s t hi h
  rw [toEngine_of_exec_eq_next h]
  obtain rfl | ⟨p, rfl⟩ | ⟨m, p, rfl⟩ | ⟨cand, rfl⟩ | ⟨p, c, rfl⟩ := hi
  all_goals
    refine ⟨perform_crcReg_of_ne _ _ (by simp) (by simp), fun a => ?_, input_of_exec_eq_next h⟩
    rw [perform_rbuf_of_ne _ _ (by simp) (by simp) (by simp)]

/-- Settles O54: neither is a writer of `rbuf`. -/
theorem crcCommandsFrame : Obligations.CrcCommandsFrame := by
  intro i s t hi h
  rw [toEngine_of_exec_eq_next h]
  obtain rfl | ⟨b, rfl⟩ := hi
  all_goals
    refine ⟨fun a => ?_, input_of_exec_eq_next h⟩
    rw [perform_rbuf_of_ne _ _ (by simp) (by simp) (by simp)]

end Sys2Proof.Proofs
end

section
/-! PROOFS. The memory family (20_memory.md): a run performs its program in order, the loop's frames lie in the
RawBuffer in order, and the commands that drop bytes move the rest by one distance. -/

namespace Sys2Proof.Proofs

open Sys2Proof.Machine Sys2Proof.Laws

/-! ## A run of a program (R5, R48) -/

/-- The per-instruction family in one statement: the port can be handed any instruction. -/
theorem decode_encode (i : Instr) : decode (encode i) = .ok i := by
  cases i with
  | crcInit => exact EncodeDecodes.crcInit
  | crcUpdate b => exact EncodeDecodes.crcUpdate b
  | crcRead => exact EncodeDecodes.crcRead
  | crcCompute p => exact EncodeDecodes.crcCompute p
  | frmEncode m p => exact EncodeDecodes.frmEncode m p
  | frmDecode cand => exact EncodeDecodes.frmDecode cand
  | frmValidate p c => exact EncodeDecodes.frmValidate p c
  | raAppend c => exact EncodeDecodes.raAppend c
  | raExtract => exact EncodeDecodes.raExtract
  | raReset => exact EncodeDecodes.raReset

theorem issue_cons (i : Instr) (is : List Instr) : issue (i :: is) = .command (encode i) :: issue is := rfl

/-- A step on an encoded instruction performs it, and the response goes to the host. -/
theorem step_of_encode {s : State} {i : Instr} {rest : List PortInput}
    (hin : s.input = .command (encode i) :: rest) :
    step s = .next ⟨(perform Config.wvfe i s.toEngine).1, rest,
      s.responses ++ [(perform Config.wvfe i s.toEngine).2]⟩ := by
  rw [step_of_decode_ok hin (decode_encode i), exec_eq_commit_perform, commit]

/-- Settles O14, by induction on the program: the first step performs the first command, and the rest of the run
starts from the state it leaves. -/
theorem runPerformsTheProgramInOrder : Obligations.RunPerformsTheProgramInOrder := by
  intro is rest s hin
  induction is generalizing s with
  | nil =>
    have hin : s.input = rest := hin
    rw [performAll_nil, List.append_nil, ← hin]
    rfl
  | cons i is ih =>
    rw [issue_cons, List.cons_append] at hin
    rw [List.length_cons, core_run_of_next (step_of_encode hin), ih _ rfl, performAll_cons, List.append_assoc]
    rfl

/-! ## Where the frames returned lie in the RawBuffer (R23, R148) -/

/-- The wire bytes of the frames, in order, each after the dropped bytes that stood before it. -/
def framesAfterGaps (cfg : Config) (gaps : List Bytes) (frames : List Frame) : Bytes :=
  (List.zipWith (fun g f => g ++ encodeFrame cfg f.payload) gaps frames).flatten

theorem framesAfterGaps_cons (cfg : Config) (g : Bytes) (gaps : List Bytes) (f : Frame) (frames : List Frame) :
    framesAfterGaps cfg (g :: gaps) (f :: frames) =
      g ++ encodeFrame cfg f.payload ++ framesAfterGaps cfg gaps frames := rfl

/-- `rbuf` is the frames' wire bytes in order, dropped bytes before each, then dropped bytes, then `kept`. -/
def LieInOrder (cfg : Config) (rbuf : Bytes) (frames : List Frame) (kept : Bytes) : Prop :=
  ∃ (gaps : List Bytes) (dropped : Bytes),
    gaps.length = frames.length ∧ rbuf = framesAfterGaps cfg gaps frames ++ dropped ++ kept

/-- No frame and nothing dropped: the loop returns at once. -/
theorem LieInOrder.nothing (cfg : Config) (kept : Bytes) : LieInOrder cfg kept [] kept :=
  ⟨[], [], rfl, rfl⟩

/-- One more dropped byte at the front belongs to the first gap, or without frames to the bytes dropped last. -/
theorem LieInOrder.cons_dropped {cfg : Config} {rbuf kept : Bytes} {frames : List Frame} (b : Byte)
    (h : LieInOrder cfg rbuf frames kept) : LieInOrder cfg (b :: rbuf) frames kept := by
  obtain ⟨gaps, dropped, hlen, rfl⟩ := h
  match gaps, frames, hlen with
  | [], [], _ => exact ⟨[], b :: dropped, rfl, rfl⟩
  | g :: gaps, f :: frames, hlen =>
    refine ⟨(b :: g) :: gaps, dropped, hlen, ?_⟩
    simp only [framesAfterGaps_cons, List.cons_append]

/-- One more frame at the front, with an empty gap before it. -/
theorem LieInOrder.cons_frame {cfg : Config} {rbuf kept : Bytes} {frames : List Frame} (f : Frame)
    (h : LieInOrder cfg rbuf frames kept) :
    LieInOrder cfg (encodeFrame cfg f.payload ++ rbuf) (f :: frames) kept := by
  obtain ⟨gaps, dropped, hlen, rfl⟩ := h
  refine ⟨[] :: gaps, dropped, congrArg (· + 1) hlen, ?_⟩
  simp only [framesAfterGaps_cons, List.nil_append, List.append_assoc]

/-- A laid-out candidate with the payload's CRC and the trailer is what `FRM.ENCODE` writes for its payload (R148). -/
theorem layout_eq_encodeFrame (cfg : Config) {L h l : Byte} {p rest : Bytes} (hp : p.length = L.toNat)
    (hc : crc16 cfg p = be16 h l) : layout L p h l (0x03#8 :: rest) = encodeFrame cfg p ++ rest := by
  simp [encodeFrame, hp, hc, hi_be16, lo_be16]

/-- The loop drops a byte that is no marker and a rejected marker, and takes an accepted frame whole. -/
theorem extract_frames_lieInOrder (cfg : Config) (rbuf : Bytes) :
    LieInOrder cfg rbuf (extract cfg rbuf).1 (extract cfg rbuf).2 := by
  induction rbuf using rbuf_induction with
  | empty => exact .nothing cfg _
  | other b t hb ih =>
    rw [extract_other cfg hb]
    exact ih.cons_dropped b
  | alone => exact .nothing cfg _
  | incomplete L r hr =>
    rw [extract_incomplete cfg hr]
    exact .nothing cfg _
  | complete L p h l x rest hp ihRest ihResync =>
    by_cases hx : x = 0x03#8 ∧ crc16 cfg p = be16 h l
    · obtain ⟨rfl, hc⟩ := hx
      rw [extract_accepted cfg hp hc, layout_eq_encodeFrame cfg hp hc]
      exact ihRest.cons_frame ⟨.small, p, be16 h l⟩
    · rw [extract_rejected cfg hp hx]
      exact ihResync.cons_dropped 0x02#8

/-- Settles O50: the gaps are the bytes the loop drops before each frame. -/
theorem framesComeOutInBufferOrder : Obligations.FramesComeOutInBufferOrder :=
  extract_frames_lieInOrder

/-! ## The commands that drop bytes (R40, R142, R150) -/

/-- After `n` bytes are dropped, address `a` holds what address `a + n` held (R40). -/
theorem memoryRead_drop (rbuf : Bytes) (n a : Nat) :
    Memory.read (rbuf.drop n) a = Memory.read rbuf (a + n) := by
  rw [Memory.read, Memory.read, List.getElem?_drop, Nat.add_comm]

/-- `RA.EXTRACT` and `RA.RESET` drop bytes at the front only (R23). -/
theorem perform_rbuf_suffix (cfg : Config) {i : Instr} (e : Engine) (hi : i = .raExtract ∨ i = .raReset) :
    (perform cfg i e).1.rbuf <:+ e.rbuf := by
  obtain rfl | rfl := hi
  · exact extract_suffix cfg e.rbuf
  · exact List.nil_suffix

/-- Settles O56: neither writes `crc_reg`, and the distance is the number of bytes dropped. -/
theorem droppingCommandsFrame : Obligations.DroppingCommandsFrame := by
  intro i s t hi h
  have hcrc : (perform Config.wvfe i s.toEngine).1.crcReg = s.crcReg := by
    obtain rfl | rfl := hi <;> exact perform_crcReg_of_ne _ _ (by simp) (by simp)
  have hdrop := List.suffix_iff_eq_drop.mp (perform_rbuf_suffix Config.wvfe s.toEngine hi)
  rw [toEngine_of_exec_eq_next h]
  refine ⟨hcrc, input_of_exec_eq_next h, s.rbuf.length - (perform Config.wvfe i s.toEngine).1.rbuf.length,
    fun a => ?_⟩
  rw [← memoryRead_drop, ← hdrop]

end Sys2Proof.Proofs
end

section
/-! PROOFS. The encoding family (30_encoding.md): decoding and encoding agree, which commands are well formed and
which opcodes are illegal, which byte sequences are frames, and the pseudo-instruction `RA.FEED`. -/

namespace Sys2Proof.Proofs

open Sys2Proof.Machine Sys2Proof.Laws

/-! ## Decode and encode agree (R67 to R71) -/

/-- The opcode byte of an operation in a mode; only `FRM.ENCODE` looks at the mode (R68, R69). -/
def opcodeOfOperation (m : FrameMode) : Operation → Byte
  | .crcInit => 0x10#8
  | .crcUpdate => 0x11#8
  | .crcRead => 0x12#8
  | .crcCompute => 0x13#8
  | .frmEncode => encodeOpcode m
  | .frmDecode => 0x22#8
  | .frmValidate => 0x23#8
  | .raAppend => 0x30#8
  | .raExtract => 0x31#8
  | .raReset => 0x32#8

/-- An opcode byte is fixed by its operation and its mode field. -/
theorem eq_opcodeOfOperation :
    ∀ op : Byte, ∀ o ∈ operationOf op, op = opcodeOfOperation (modeOfOpcode op) o := by
  decide +kernel

/-- The decoder gives an instruction exactly when the opcode names an operation and the operands assemble. -/
theorem decode_eq_ok_iff (c : Command) (i : Instr) :
    decode c = .ok i ↔ ∃ o, operationOf c.opcode = some o ∧ assemble o c.opcode c.operands = some i := by
  cases ho : operationOf c.opcode with
  | none => simp [decode, ho]
  | some o => cases ha : assemble o c.opcode c.operands <;> simp [decode, ho, ha]

/-- Assembled operands are written back as they were. -/
theorem encode_of_assemble {o : Operation} {op : Byte} {operands : List Operand} {i : Instr}
    (h : assemble o op operands = some i) :
    encode i = ⟨opcodeOfOperation (modeOfOpcode op) o, operands⟩ := by
  unfold assemble at h
  split at h <;> cases h <;> rfl

/-- Only an instruction's encoding decodes to it. -/
theorem eq_encode_of_decode {c : Command} {i : Instr} (h : decode c = .ok i) : c = encode i := by
  obtain ⟨o, ho, ha⟩ := (decode_eq_ok_iff c i).mp h
  rw [encode_of_assemble ha, ← eq_opcodeOfOperation c.opcode o ho]

/-- Settles O2: the encoding decodes to its instruction, and no other command does. -/
theorem decodeAndEncodeAgree : Obligations.DecodeAndEncodeAgree := by
  refine fun c i => ⟨eq_encode_of_decode, ?_⟩
  rintro rfl
  exact decode_encode i

/-- Settles O1: each command of the map is the encoding of its row's instruction. -/
theorem commandMapDecodes : Obligations.CommandMapDecodes :=
  ⟨decode_encode .crcInit, fun b => decode_encode (.crcUpdate b), decode_encode .crcRead,
    fun s => decode_encode (.crcCompute s), fun p => decode_encode (.frmEncode .small p),
    fun p => decode_encode (.frmEncode .large p), fun s => decode_encode (.frmDecode s),
    fun p c => decode_encode (.frmValidate p c), fun c => decode_encode (.raAppend c),
    decode_encode .raExtract, decode_encode .raReset⟩

/-! ## Well-formed commands (R67, R71) -/

/-- The operand format of an operation, the "format" column of R69. -/
def formatOfOperation : Operation → Format
  | .crcInit | .crcRead | .raExtract | .raReset => .N
  | .crcUpdate => .B
  | .crcCompute | .frmEncode | .frmDecode | .raAppend => .S
  | .frmValidate => .SV

/-- The rows that give an opcode its operation and those that give it its format are the same rows. -/
theorem formatOf_eq_map_operationOf :
    ∀ op : Byte, formatOf op = (operationOf op).map formatOfOperation := by
  decide +kernel

theorem wellFormed_iff (c : Command) :
    c.wellFormed = true ↔
      ∃ o, operationOf c.opcode = some o ∧ (formatOfOperation o).admits c.operands = true := by
  rw [Command.wellFormed, formatOf_eq_map_operationOf]
  cases operationOf c.opcode <;> simp

/-- Operands of an operation's format assemble. -/
theorem exists_assemble_of_admits {o : Operation} {operands : List Operand} (op : Byte)
    (h : (formatOfOperation o).admits operands = true) : ∃ i, assemble o op operands = some i := by
  cases o with
  | crcInit | crcRead | raExtract | raReset =>
    match operands, h with
    | [], _ => exact ⟨_, rfl⟩
  | crcUpdate =>
    match operands, h with
    | [.byte b], _ => exact ⟨_, rfl⟩
  | crcCompute | frmEncode | frmDecode | raAppend =>
    match operands, h with
    | [.seq s], _ => exact ⟨_, rfl⟩
  | frmValidate =>
    match operands, h with
    | [.seq p, .word16 c], _ => exact ⟨_, rfl⟩

/-- Every instruction is written as a well-formed command. -/
theorem wellFormed_encode (i : Instr) : (encode i).wellFormed = true := by
  cases i with
  | frmEncode m p => cases m <;> rfl
  | _ => rfl

/-- Settles O4: operands of the format assemble, and what decodes is an encoding. -/
theorem wellFormedCommandsDecode : Obligations.WellFormedCommandsDecode := by
  refine fun c => ⟨fun hw => ?_, ?_⟩
  · obtain ⟨o, ho, hadm⟩ := (wellFormed_iff c).mp hw
    obtain ⟨i, ha⟩ := exists_assemble_of_admits c.opcode hadm
    exact ⟨i, (decode_eq_ok_iff c i).mpr ⟨o, ho, ha⟩⟩
  · rintro ⟨i, hi⟩
    rw [eq_encode_of_decode hi]
    exact wellFormed_encode i

/-! ## Illegal opcodes (R71) -/

/-- The illegal opcode is detected first: the operands do not matter (R177). -/
theorem decode_eq_illegalOpcode_iff (op : Byte) (operands : List Operand) :
    decode ⟨op, operands⟩ = .error (.illegalOpcode op) ↔ operationOf op = none := by
  cases ho : operationOf op with
  | none => simp [decode, ho]
  | some o => cases ha : assemble o op operands <;> simp [decode, ho, ha]

/-- The bytes that name no operation, as the ranges of R71. -/
theorem operationOf_eq_none_iff :
    ∀ op : Byte, operationOf op = none ↔
      (op.toNat ≤ 0x0F ∨ (0x14 ≤ op.toNat ∧ op.toNat ≤ 0x1F) ∨
        (0x24 ≤ op.toNat ∧ op.toNat ≤ 0x2F) ∨ 0x33 ≤ op.toNat) := by
  decide +kernel

/-- Settles O3: the decoder answers `illegalOpcode` on the bytes that name no operation. -/
theorem illegalOpcodesAreOutsideTheMap : Obligations.IllegalOpcodesAreOutsideTheMap := by
  refine ⟨fun op operands => ?_, by decide +kernel⟩
  rw [decode_eq_illegalOpcode_iff, operationOf_eq_none_iff]

/-! ## The wire frame (R60, R61, R65) -/

/-- The valid frames are what `FRM.ENCODE` writes for the payloads it admits. -/
theorem isFrame_iff_eq_encodeFrame (cfg : Config) (s : Bytes) :
    isFrame cfg s = true ↔ ∃ p : Bytes, p.length ≤ 255 ∧ s = encodeFrame cfg p := by
  constructor
  · intro hf
    obtain ⟨L, h, l, p, hp, hc, rfl⟩ := (isFrame_iff_layout cfg s).mp hf
    have hL : p.length ≤ 255 := by have := L.isLt; omega
    exact ⟨p, hL, by rw [layout_eq_encodeFrame cfg hp hc, List.append_nil]⟩
  · rintro ⟨p, hp, rfl⟩
    exact isFrame_encodeFrame cfg hp

/-- Settles O32: `encodeFrame` is the layout of R60. -/
theorem validFramesAreTheEncodings : Obligations.ValidFramesAreTheEncodings :=
  isFrame_iff_eq_encodeFrame

/-- R29's form says, among the rest, that the Frame is `Small`. -/
theorem mode_of_frame_wf {cfg : Config} {f : Frame} (h : f.wf cfg = true) : f.mode = .small := by
  simp only [Frame.wf, Bool.and_eq_true, decide_eq_true_eq] at h
  obtain ⟨⟨hmode, -⟩, -⟩ := h
  exact hmode

/-- Settles O49: the loop passes over any other byte, returns well-formed Frames only, and the mode is checked
before anything else. -/
theorem largeFramesAreNotRecognised : Obligations.LargeFramesAreNotRecognised :=
  ⟨fun cfg _ r hb => extract_other cfg hb r, fun cfg rbuf f hf => mode_of_frame_wf (extract_frames_wf cfg rbuf f hf),
    fun _ _ _ => rfl⟩

/-! ## `RA.FEED` (R72, R140, R141) -/

/-- A chunk that fits is appended whole (R140). -/
theorem perform_raAppend_of_withinCapacity {cfg : Config} {c : Bytes} {e : Engine}
    (h : WithinCapacity cfg.rbCap (e.rbuf.length + c.length)) :
    perform cfg (.raAppend c) e = (e.setRbuf (e.rbuf ++ c), .ok .none) := by
  rw [perform, performRaAppend, if_pos ((capHolds_iff_withinCapacity _ _).mpr h), returnOk, bufAppend]

/-- A chunk that does not fit is refused and changes nothing (R141). -/
theorem perform_raAppend_of_not_withinCapacity {cfg : Config} {c : Bytes} {e : Engine}
    (h : ¬ WithinCapacity cfg.rbCap (e.rbuf.length + c.length)) :
    perform cfg (.raAppend c) e = (e, .error (.bufferOverflow (e.rbuf.length + c.length))) := by
  rw [perform, performRaAppend, if_neg (mt (capHolds_iff_withinCapacity _ _).mp h), raise]

/-- `RA.FEED` runs `RA.EXTRACT` on what `RA.APPEND` leaves, whatever it answered. -/
theorem performAll_raFeed (cfg : Config) (c : Bytes) (e : Engine) :
    performAll cfg (raFeed c) e =
      ((perform cfg .raExtract (perform cfg (.raAppend c) e).1).1,
        [(perform cfg (.raAppend c) e).2, (perform cfg .raExtract (perform cfg (.raAppend c) e).1).2]) := rfl

/-- Settles O52, by the two outcomes of `RA.APPEND`. -/
theorem raFeedRunsBothCommands : Obligations.RaFeedRunsBothCommands := by
  refine fun cfg c e => ⟨fun h => ?_, fun h => ?_⟩
  · rw [performAll_raFeed, perform_raAppend_of_withinCapacity h]
    rfl
  · rw [performAll_raFeed, perform_raAppend_of_not_withinCapacity h]
    rfl

end Sys2Proof.Proofs
end

section
/-! PROOFS. The CRC family (40_crc.md): the results of the four commands, the three forms of the byte step, the
streamed CRC, single-bit errors, and what the CRC's parameters make of it. -/

namespace Sys2Proof.Proofs

open Sys2Proof.Machine Sys2Proof.Laws

/-! ## The commands, each with its whole effect (R103 to R106, R125) -/

@[simp] theorem perform_crcInit (cfg : Config) (e : Engine) :
    perform cfg .crcInit e = (e.setCrcReg cfg.crcInit, .ok .none) := rfl

@[simp] theorem perform_crcUpdate (cfg : Config) (b : Byte) (e : Engine) :
    perform cfg (.crcUpdate b) e = (e.setCrcReg (crcStep e.crcReg b), .ok .none) := rfl

@[simp] theorem perform_crcRead (cfg : Config) (e : Engine) :
    perform cfg .crcRead e = (e, .ok (.word16 (e.crcReg ^^^ cfg.crcXorOut))) := rfl

@[simp] theorem perform_crcCompute (cfg : Config) (p : Bytes) (e : Engine) :
    perform cfg (.crcCompute p) e = (e, .ok (.word16 (crc16 cfg p))) := rfl

@[simp] theorem perform_frmValidate (cfg : Config) (p : Bytes) (c : Word16) (e : Engine) :
    perform cfg (.frmValidate p c) e = (e, .ok (.bool (validate cfg p c))) := rfl

/-- A command's effect on the engine under the engine's own parameters is its effect on the machine. -/
theorem exec_of_perform {i : Instr} {s : State} {e : Engine} {r : Response}
    (h : perform Config.wvfe i s.toEngine = (e, r)) :
    exec i s = .next { s with toEngine := e, responses := s.responses ++ [r] } := by
  rw [exec_eq_commit_perform, h, commit]

/-- The rules' nine-byte example, the characters "123456789" (R105, R109). -/
def checkBytes : Bytes :=
  [0x31#8, 0x32#8, 0x33#8, 0x34#8, 0x35#8, 0x36#8, 0x37#8, 0x38#8, 0x39#8]

theorem crcFold_checkBytes : crcFold 0x0000#16 checkBytes = 0x31C3#16 := by decide +kernel

theorem crcFold_checkBytes_ffff : crcFold 0xFFFF#16 checkBytes = 0x29B1#16 := by decide +kernel

theorem crc16_nil (cfg : Config) : crc16 cfg [] = cfg.crcInit ^^^ cfg.crcXorOut := rfl

/-- Settles O15: the register becomes `CRC_INIT`, which is 0x0000. -/
theorem crcInitResult : Obligations.CrcInitResult :=
  fun s => exec_of_perform (perform_crcInit Config.wvfe s.toEngine)

/-- Settles O16: the byte step is eight shifts by definition. -/
theorem crcUpdateResult : Obligations.CrcUpdateResult :=
  ⟨fun b s => exec_of_perform (perform_crcUpdate Config.wvfe b s.toEngine), by decide, by decide⟩

/-- Settles O17: reading writes nothing, so after `CRC.INIT` it sees `CRC_INIT`. -/
theorem crcReadResult : Obligations.CrcReadResult :=
  ⟨fun s => exec_of_perform (perform_crcRead Config.wvfe s.toEngine),
    fun cfg e => by simp [performAll_cons, performAll_nil], crc16_nil, crcFold_checkBytes⟩

/-- Settles O18: the result is `crc16`, which is evaluated on the rule's cases. -/
theorem crcComputeResult : Obligations.CrcComputeResult :=
  ⟨fun p s => exec_of_perform (perform_crcCompute Config.wvfe p s.toEngine),
    by decide, by decide, by decide, by decide⟩

/-! ## The byte form and the bit-serial form (R100) -/

theorem crcShifts_eq_iterate (n : Nat) (c : Word16) : crcShifts n c = crcShift^[n] c := by
  induction n generalizing c with
  | zero => rfl
  | succ n ih => exact ih (crcShift c)

/-- The first `n` bits that shifting `w` left moves out, the top bit first. -/
def topBits : Nat → Word16 → List Bool
  | 0, _ => []
  | n + 1, w => w.getLsbD 15 :: topBits n (w <<< 1)

/-- The register's high half shifts out the bits of its byte in the order the LFSR takes them. -/
theorem topBits_highByte (b : Byte) : topBits 8 (zext16 b <<< 8) = bitsMsbFirst b := by
  simp [topBits, bitsMsbFirst, zext16]

/-- The register's high half is clear, so eight shifts move out no 1. -/
theorem topBits_lowByte (b : Byte) : topBits 8 (zext16 b) = List.replicate 8 false := by
  simp [topBits, zext16, List.replicate]

/-- Shifting with `w` in the register is a serial step on the bit `w` shifts out, with the rest of `w` still in the
register. -/
theorem crcShift_xor_eq_serialBit (c w : Word16) :
    crcShift (c ^^^ w) = crcSerialBit c (w.getLsbD 15) ^^^ (w <<< 1) := by
  rw [crcShift, crcSerialBit, BitVec.getLsbD_xor, BitVec.shiftLeft_xor_distrib]
  split
  next => ac_rfl
  next => rfl

/-- `n` shifts with `w` in the register are `n` serial steps on the bits `w` shifts out. -/
theorem crcShifts_xor_eq_serial (n : Nat) (c w : Word16) :
    crcShifts n (c ^^^ w) = (topBits n w).foldl crcSerialBit c ^^^ (w <<< n) := by
  induction n generalizing c w with
  | zero => rw [BitVec.shiftLeft_zero]; rfl
  | succ n ih =>
    rw [crcShifts, crcShift_xor_eq_serialBit, ih, topBits, List.foldl_cons, Nat.add_comm n 1, BitVec.shiftLeft_add]

theorem hi_highByte (b : Byte) : hi (zext16 b <<< 8) = b := by
  simpa [be16, zext16] using hi_be16 b 0#8

theorem highByte_shiftLeft (b : Byte) : zext16 b <<< 8 <<< 8 = 0#16 := by
  rw [← BitVec.shiftLeft_add, BitVec.shiftLeft_eq_zero (by decide)]

/-- The byte fills the high half, so eight shifts move out all of it and leave nothing. -/
theorem crcStepSerial_eq_crcStep (c : Word16) (b : Byte) : crcStepSerial c b = crcStep c b := by
  rw [crcStep, crcShifts_xor_eq_serial, topBits_highByte, highByte_shiftLeft, BitVec.xor_zero, crcStepSerial]

/-- Settles O19: bit by bit the byte in the register's high half is what the LFSR is fed. -/
theorem bitSerialFormAgrees : Obligations.BitSerialFormAgrees :=
  ⟨fun _ => rfl, fun _ _ => crcShifts_eq_iterate 8 _, fun _ _ => rfl, crcStepSerial_eq_crcStep⟩

/-! ## The table form (R102) -/

/-- A register is its high byte in its place and its low byte (R9). -/
theorem highByte_xor_lowByte (c : Word16) : (zext16 (hi c) <<< 8) ^^^ zext16 (lo c) = c := by
  ext k hk
  by_cases h8 : k < 8
  · simp [zext16, lo, h8, BitVec.getLsbD_eq_getElem hk]
  · have hhi : k - 8 < 8 := by omega
    have hk8 : 8 + (k - 8) = k := by omega
    have hlo : (lo c).getLsbD k = false := BitVec.getLsbD_of_ge _ _ (by omega)
    simp [zext16, hi, h8, hhi, hk8, hlo, BitVec.getLsbD_eq_getElem hk]

theorem lowByte_shiftLeft (c : Word16) : zext16 (lo c) <<< 8 = c <<< 8 := by
  conv_rhs => rw [← highByte_xor_lowByte c, BitVec.shiftLeft_xor_distrib, highByte_shiftLeft, BitVec.zero_xor]

/-- Eight shifts carry a low byte into the high half; no 1 leaves the register, so the polynomial is never added. -/
theorem crcShifts_lowByte (b : Byte) : crcShifts 8 (zext16 b) = zext16 b <<< 8 := by
  have hzero : (List.replicate 8 false).foldl crcSerialBit 0#16 = 0#16 := by decide
  have h := crcShifts_xor_eq_serial 8 0#16 (zext16 b)
  rwa [topBits_lowByte, hzero, BitVec.zero_xor, BitVec.zero_xor] at h

/-- The byte step is linear: the high byte and the data byte go through the table, the low byte moves up. -/
theorem crcStepTable_eq_crcStep (c : Word16) (b : Byte) : crcStepTable c b = crcStep c b := by
  have hsplit : c ^^^ (zext16 b <<< 8) = (0#16 ^^^ (zext16 (hi c ^^^ b) <<< 8)) ^^^ zext16 (lo c) := by
    conv_lhs => rw [← highByte_xor_lowByte c]
    rw [BitVec.zero_xor, zext16, zext16, zext16, zext16, BitVec.setWidth_xor, BitVec.shiftLeft_xor_distrib]
    ac_rfl
  calc crcStepTable c b
    _ = crcShifts 8 (0#16 ^^^ (zext16 (hi c ^^^ b) <<< 8)) ^^^ crcShifts 8 (zext16 (lo c)) := by
      rw [crcShifts_lowByte, lowByte_shiftLeft, crcStepTable, crcTable, crcStep]
    _ = crcStep c b := by rw [← crcShifts_xor, ← hsplit, crcStep]

theorem crcStep_zero : crcStep 0#16 0#8 = 0#16 := crcShifts_zero 8

/-- The byte in the register's high half cancels it. -/
theorem crcStep_hi (c : Word16) : crcStep c (hi c) = c <<< 8 := by
  rw [← crcStepTable_eq_crcStep, crcStepTable, BitVec.xor_self, crcTable, crcStep_zero, BitVec.zero_xor]

theorem hi_shiftLeft (c : Word16) : hi (c <<< 8) = lo c := by
  rw [← lowByte_shiftLeft, hi_highByte]

/-- Settles O20, by linearity; the listed entries are evaluated. -/
theorem tableFormAgrees : Obligations.TableFormAgrees :=
  ⟨crcStepTable_eq_crcStep, by decide, by decide, by decide, by decide, by decide, by decide⟩

/-! ## Streaming (R107) -/

/-- A run of `CRC.UPDATE`s folds its bytes into the register and answers `OK` to each. -/
theorem performAll_crcUpdates (cfg : Config) (bs : Bytes) (e : Engine) :
    performAll cfg (bs.map .crcUpdate) e =
      (e.setCrcReg (crcFold e.crcReg bs), List.replicate bs.length (.ok .none)) := by
  induction bs generalizing e with
  | nil => rfl
  | cons b bs ih =>
    rw [List.map_cons, performAll_cons, perform_crcUpdate, ih]
    rfl

/-- `CRC.STREAM`, whole: the register holds the fold, and the last response is the CRC. -/
theorem performAll_crcStream (cfg : Config) (bs : Bytes) (e : Engine) :
    performAll cfg (crcStream bs) e =
      (e.setCrcReg (crcFold cfg.crcInit bs),
        List.replicate (bs.length + 1) (.ok .none) ++ [.ok (.word16 (crc16 cfg bs))]) := by
  rw [crcStream, List.append_assoc, List.singleton_append, performAll_cons, performAll_append, perform_crcInit,
    performAll_crcUpdates]
  rfl

/-- Settles O21: the stream folds from `CRC_INIT` and reads, which is how `crc16` is defined. -/
theorem streamingAgreesWithCompute : Obligations.StreamingAgreesWithCompute := by
  intro cfg s e
  rw [performAll_crcStream, perform_crcCompute]
  exact ⟨rfl, Engine.setCrcReg_rbuf _ _, rfl⟩

/-! ## Single-bit errors (R108) -/

/-- With the same register, different bytes leave different registers. -/
theorem crcStep_byte_injective {c : Word16} {b b' : Byte} (h : crcStep c b = crcStep c b') : b = b' := by
  have h0 := crcStep_xor c c b b'
  rw [h, BitVec.xor_self, BitVec.xor_self] at h0
  have hword : 0#16 ^^^ (zext16 (b ^^^ b') <<< 8) = 0#16 := crcShifts_eq_zero (n := 8) h0
  rw [BitVec.zero_xor] at hword
  have hbyte := congrArg hi hword
  rw [hi_highByte] at hbyte
  exact BitVec.xor_eq_zero_iff.mp hbyte

/-- Sequences that differ in one byte have different CRCs, wherever the byte stands. -/
theorem crc16_ne_of_byte_ne (cfg : Config) (p q : Bytes) {b b' : Byte} (h : b ≠ b') :
    crc16 cfg (p ++ b :: q) ≠ crc16 cfg (p ++ b' :: q) := by
  intro heq
  rw [crc16, crc16, BitVec.xor_left_inj, crcFold_append, crcFold_append, crcFold_cons, crcFold_cons] at heq
  exact h (crcStep_byte_injective (crcFold_injective heq))

theorem one_shiftLeft_ne_zero {w k : Nat} (hk : k < w) : 1#w <<< k ≠ 0#w := by
  intro h
  have hbit := congrArg (·.getLsbD k) h
  simp [hk] at hbit

/-- One flipped bit changes a word. -/
theorem xor_one_shiftLeft_ne {w k : Nat} (x : BitVec w) (hk : k < w) : x ^^^ (1#w <<< k) ≠ x :=
  mt xor_left_eq_self_iff.mp (one_shiftLeft_ne_zero hk)

theorem crc16_flipBit_ne (cfg : Config) {p : Bytes} {j k : Nat} (hj : j < p.length) (hk : k < 8) :
    crc16 cfg (flipBit p j k) ≠ crc16 cfg p := by
  have hp : p = p.take j ++ p[j] :: p.drop (j + 1) := by rw [List.getElem_cons_drop, List.take_append_drop]
  rw [flipBit, List.modify_eq_take_cons_drop hj]
  conv_rhs => rw [hp]
  exact crc16_ne_of_byte_ne cfg _ _ (xor_one_shiftLeft_ne _ hk)

/-- `FRM.VALIDATE` answers false, and nothing else changes, when the CRC is not the payload's (R125). -/
theorem exec_frmValidate_of_crc16_ne {p : Bytes} {c : Word16} (s : State) (h : crc16 Config.wvfe p ≠ c) :
    exec (.frmValidate p c) s = .next { s with responses := s.responses ++ [.ok (.bool false)] } := by
  have hv : validate Config.wvfe p c = false := beq_false_of_ne h
  rw [exec_of_perform (perform_frmValidate Config.wvfe p c s.toEngine), hv]

/-- Settles O23: a flipped bit makes one byte of the payload differ, or the CRC. -/
theorem singleBitErrorsAreDetected : Obligations.SingleBitErrorsAreDetected := by
  refine ⟨fun cfg p j k => crc16_flipBit_ne cfg, fun cfg p c k hk hc => ?_, fun p c j k s hc hj hk => ?_,
    fun p c k s hc hk => ?_⟩
  · rw [hc]
    exact (xor_one_shiftLeft_ne c hk).symm
  · subst hc
    exact exec_frmValidate_of_crc16_ne s (crc16_flipBit_ne _ hj hk)
  · subst hc
    exact exec_frmValidate_of_crc16_ne s (xor_one_shiftLeft_ne _ hk).symm

/-! ## What the parameters make of the CRC (R109) -/

/-- Without a final XOR the CRC is the fold from the initial value. -/
theorem crc16_of_params {cfg : Config} {c : Word16} (hInit : cfg.crcInit = c) (hXor : cfg.crcXorOut = 0x0000#16)
    (p : Bytes) : crc16 cfg p = crcFold c p := by
  rw [crc16, hInit, hXor, BitVec.xor_zero]

/-- A register followed by its own two bytes, high byte first, is cleared. -/
theorem crcFold_own_bytes (c : Word16) : crcFold c [hi c, lo c] = 0#16 := by
  rw [crcFold_cons, crcFold_cons, crcFold_nil, crcStep_hi, ← hi_shiftLeft, crcStep_hi, ← lowByte_shiftLeft c,
    highByte_shiftLeft]

theorem crcFold_zero_cons (p : Bytes) : crcFold 0#16 (0#8 :: p) = crcFold 0#16 p := by
  rw [crcFold_cons, crcStep_zero]

theorem crcFold_zero_replicate (n : Nat) : crcFold 0#16 (List.replicate n 0#8) = 0#16 := by
  induction n with
  | zero => rfl
  | succ n ih => rw [List.replicate_succ, crcFold_zero_cons, ih]

/-- Settles O24: under either choice of the parameters the CRC is a bare fold. -/
theorem crcPropertiesUnderD1 : Obligations.CrcPropertiesUnderD1 := by
  refine ⟨fun cfg hInit hXor => ?_, fun cfg hInit hXor => ?_⟩
  · simp only [crc16_of_params hInit hXor]
    exact ⟨crcFold_checkBytes, fun p => by rw [crcFold_append, crcFold_own_bytes], crcFold_zero_cons,
      crcFold_zero_replicate⟩
  · simp only [crc16_of_params hInit hXor]
    exact ⟨crcFold_checkBytes_ffff, crcFold_nil _⟩

end Sys2Proof.Proofs
end

section
/-! PROOFS. The framer family (41_framer.md): the results of the three commands, what encoding and decoding make of
each other, and the valid frame as the check the reassembler makes. -/

namespace Sys2Proof.Proofs

open Sys2Proof.Machine Sys2Proof.Laws

/-! ## The parts of a laid-out sequence (R60) -/

theorem length_layout {L h l : Byte} {p rest : Bytes} (hp : p.length = L.toNat) :
    (layout L p h l rest).length = L.toNat + 4 + rest.length := by
  simp only [layout, List.length_cons, List.length_append, hp]
  omega

/-- The byte after the two CRC bytes, where the trailer belongs. -/
theorem trailer_layout {L h l x : Byte} {p rest : Bytes} (hp : p.length = L.toNat) :
    byteAt (layout L p h l (x :: rest)) (4 + L.toNat) = x :=
  after_layout hp 0

theorem layout_eq_span_append (L h l x : Byte) (p rest : Bytes) :
    layout L p h l (x :: rest) = layout L p h l [x] ++ rest := by
  simp [layout]

/-- A complete candidate's span is its first `L + 5` bytes. -/
theorem take_layout {L h l x : Byte} {p rest : Bytes} (hp : p.length = L.toNat) :
    (layout L p h l (x :: rest)).take (L.toNat + 5) = layout L p h l [x] := by
  rw [layout_eq_span_append]
  exact List.take_left' (length_layout hp)

theorem drop_layout {L h l x : Byte} {p rest : Bytes} (hp : p.length = L.toNat) :
    (layout L p h l (x :: rest)).drop (L.toNat + 5) = rest := by
  rw [layout_eq_span_append]
  exact List.drop_left' (length_layout hp)

/-- A marker followed by the length byte `L` and at least `L + 3` more bytes begins a complete candidate. -/
theorem exists_complete_layout {L : Byte} {r : Bytes} (h : L.toNat + 3 ≤ r.length) :
    ∃ p y z x rest, p.length = L.toNat ∧ (0x02#8 :: L :: r) = layout L p y z (x :: rest) := by
  obtain ⟨p, y, z, rest, hp, heq⟩ := exists_layout (L := L) (r := r) (by omega)
  have hlen := congrArg List.length heq
  rw [length_layout hp] at hlen
  match rest with
  | [] => simp at hlen; omega
  | x :: rest => exact ⟨p, y, z, x, rest, hp, heq⟩

/-- The length byte of a payload of at most 255 bytes is its length. -/
theorem toNat_lengthByte {p : Bytes} (hp : p.length ≤ 255) : (BitVec.ofNat 8 p.length).toNat = p.length := by
  rw [BitVec.toNat_ofNat]
  omega

/-- What `FRM.ENCODE` writes is laid out, with nothing after the trailer (R60). -/
theorem encodeFrame_eq_layout (cfg : Config) (p : Bytes) : encodeFrame cfg p =
    layout (BitVec.ofNat 8 p.length) p (hi (crc16 cfg p)) (lo (crc16 cfg p)) [0x03#8] := by
  simp [encodeFrame, layout]

/-! ## `FRM.ENCODE` (R120, R121) -/

@[simp] theorem perform_frmEncode_large (cfg : Config) (p : Bytes) (e : Engine) :
    perform cfg (.frmEncode .large p) e = (e, .error .unsupportedVariant) := rfl

theorem perform_frmEncode_small_of_gt (cfg : Config) {p : Bytes} (e : Engine) (hp : 255 < p.length) :
    perform cfg (.frmEncode .small p) e = (e, .error (.lengthOverflow p.length)) := by
  rw [perform, performFrmEncode, if_pos hp, raise]

theorem perform_frmEncode_small_of_le (cfg : Config) {p : Bytes} (e : Engine) (hp : p.length ≤ 255) :
    perform cfg (.frmEncode .small p) e = (e, .ok (.bytes (encodeFrame cfg p))) := by
  rw [perform, performFrmEncode, if_neg (Nat.not_lt.mpr hp), returnOk]

/-- `FRM.ENCODE.S` answers bytes for a payload of at most 255 bytes only, and they are its wire frame. -/
theorem perform_frmEncode_small_eq_bytes {cfg : Config} {p f : Bytes} {e : Engine}
    (h : (perform cfg (.frmEncode .small p) e).2 = .ok (.bytes f)) : p.length ≤ 255 ∧ f = encodeFrame cfg p := by
  by_cases hp : p.length ≤ 255
  · rw [perform_frmEncode_small_of_le cfg e hp] at h
    cases h
    exact ⟨hp, rfl⟩
  · rw [perform_frmEncode_small_of_gt cfg e (Nat.lt_of_not_le hp)] at h
    cases h

/-- The response on the machine is the one `perform` gives. -/
theorem responds_iff (i : Instr) (s : State) (r : Response) :
    Responds i s r ↔ (perform Config.wvfe i s.toEngine).2 = r := by
  simp [Responds, exec_eq_next_iff]

/-- Settles O26: the mode is checked, then the length; the rule's two frames are evaluated. -/
theorem frmEncodeResult : Obligations.FrmEncodeResult :=
  ⟨fun p s => exec_of_perform (perform_frmEncode_large Config.wvfe p s.toEngine),
    fun _ s hp => exec_of_perform (perform_frmEncode_small_of_gt Config.wvfe s.toEngine hp),
    fun _ s hp => exec_of_perform (perform_frmEncode_small_of_le Config.wvfe s.toEngine hp),
    by decide, by decide⟩

/-- Settles O27: the bytes returned are the payload's wire frame, whose parts stand where the layout has them. -/
theorem encodedFrameIsValid : Obligations.EncodedFrameIsValid := by
  intro p f s h
  obtain ⟨hp, rfl⟩ := perform_frmEncode_small_eq_bytes ((responds_iff _ _ _).mp h)
  have hL := toNat_lengthByte hp
  refine ⟨isFrame_encodeFrame _ hp, ?_⟩
  rw [encodeFrame_eq_layout]
  refine ⟨?_, hL, ?_⟩
  · rw [length_layout hL.symm, hL, List.length_singleton]
  · simpa only [hL] using payload_layout hL.symm

/-! ## `FRM.DECODE` (R122, R123, R126) -/

/-- `Decode` gives nothing exactly on the candidates the rule calls malformed. -/
theorem decodeCandidate_eq_none_iff (cand : Bytes) : decodeCandidate cand = none ↔
    (cand.length < 2 ∨ cand[0]? ≠ some 0x02#8 ∨ ∃ L, cand[1]? = some L ∧ cand.length < L.toNat + 4) := by
  match cand with
  | [] => simp [decodeCandidate]
  | [b] => simp [decodeCandidate]
  | b :: L :: r =>
    by_cases hb : b = 0x02#8
    · simp [decodeCandidate, byteAt, frameLength, hb]
    · simp [decodeCandidate, byteAt, hb]

theorem perform_frmDecode_of_none (cfg : Config) {cand : Bytes} (e : Engine) (h : decodeCandidate cand = none) :
    perform cfg (.frmDecode cand) e = (e, .error (.malformedCandidate cand.length)) := by
  simp only [perform, performFrmDecode, h, raise]

theorem perform_frmDecode_of_some (cfg : Config) {cand p : Bytes} {c : Word16} (e : Engine)
    (h : decodeCandidate cand = some (p, c)) :
    perform cfg (.frmDecode cand) e = (e, .ok (.payloadCrc p c)) := by
  simp only [perform, performFrmDecode, h, returnOk]

/-- A candidate as the rules write it out is laid out. -/
theorem appended_eq_layout (L h l : Byte) (p rest : Bytes) :
    [0x02#8, L] ++ p ++ [h, l] ++ rest = layout L p h l rest := by
  simp [layout]

/-- Settles O28: `Decode` gives nothing on the malformed candidates, the parts of a laid-out one, and accepts only
what is laid out. -/
theorem frmDecodeResult : Obligations.FrmDecodeResult := by
  refine ⟨fun cand s hmal => ?_, fun L h l p rest s hp => ?_, fun cand hwell => ?_⟩
  · exact exec_of_perform (perform_frmDecode_of_none _ _ ((decodeCandidate_eq_none_iff cand).mpr hmal))
  · rw [appended_eq_layout]
    exact exec_of_perform (perform_frmDecode_of_some _ _ (decodeCandidate_layout hp))
  · obtain ⟨⟨p, c⟩, hd⟩ := Option.ne_none_iff_exists'.mp (mt (decodeCandidate_eq_none_iff cand).mp hwell)
    obtain ⟨L, h, l, rest, hp, -, rfl⟩ := (decodeCandidate_eq_some_iff cand p c).mp hd
    exact ⟨L, h, l, p, rest, hp, (appended_eq_layout L h l p rest).symm⟩

/-- Decoding inverts encoding: the length byte and the two CRC bytes are read back as they were written. -/
theorem decodeCandidate_encodeFrame (cfg : Config) {p : Bytes} (hp : p.length ≤ 255) :
    decodeCandidate (encodeFrame cfg p) = some (p, crc16 cfg p) := by
  rw [encodeFrame_eq_layout, decodeCandidate_layout (toNat_lengthByte hp).symm, be16_hi_lo]

/-! ## `FRM.VALIDATE` (R124, R125) -/

theorem validate_eq_true_iff (cfg : Config) (p : Bytes) (c : Word16) :
    validate cfg p c = true ↔ crc16 cfg p = c :=
  beq_iff_eq

/-- Settles O29: the result is the comparison; the rule's CRCs are evaluated. -/
theorem frmValidateResult : Obligations.FrmValidateResult := by
  refine ⟨fun p c s => ?_, by decide, by decide, ?_⟩
  · have hv : validate Config.wvfe p c = decide (crc16 Config.wvfe p = c) := beq_eq_decide _ _
    rw [← hv]
    exact exec_of_perform (perform_frmValidate Config.wvfe p c s.toEngine)
  · exact (crc16_of_params rfl rfl checkBytes).trans crcFold_checkBytes

/-- Settles O30: decoding inverts encoding, and the CRC read back is the payload's. -/
theorem encodeDecodeRoundTrip : Obligations.EncodeDecodeRoundTrip := by
  intro cfg p f e hp h
  obtain ⟨-, rfl⟩ := perform_frmEncode_small_eq_bytes h
  exact ⟨decodeCandidate_encodeFrame cfg hp, (validate_eq_true_iff cfg p _).mpr rfl⟩

/-! ## Recognising a frame (R127, R145, R146, R148) -/

/-- Settles O31: what `Decode` accepts is laid out, and the length leaves room for the trailer alone. -/
theorem frameRecognition : Obligations.FrameRecognition := by
  refine fun cfg s => ⟨fun hf => ?_, ?_⟩
  · obtain ⟨L, h, l, p, hp, hc, rfl⟩ := (isFrame_iff_layout cfg s).mp hf
    exact ⟨length_layout hp, ⟨p, be16 h l, decodeCandidate_layout hp, (validate_eq_true_iff cfg p _).mpr hc⟩,
      trailer_layout hp⟩
  · rintro ⟨hlen, ⟨p, c, hd, hv⟩, htrailer⟩
    obtain ⟨L, h, l, rest, hp, rfl, rfl⟩ := (decodeCandidate_eq_some_iff s p c).mp hd
    have hL : byteAt (layout L p h l rest) 1 = L := rfl
    rw [hL] at hlen htrailer
    rw [length_layout hp] at hlen
    obtain ⟨x, rfl⟩ := List.length_eq_one_iff.mp (show rest.length = 1 by omega)
    rw [trailer_layout hp] at htrailer
    rw [htrailer]
    exact (isFrame_iff_layout cfg _).mpr ⟨L, h, l, p, hp, (validate_eq_true_iff cfg p _).mp hv, rfl⟩

/-- The span of a complete candidate is a valid frame exactly when it passes the two checks of the loop. -/
theorem isFrame_span_iff (cfg : Config) {L h l x : Byte} {p : Bytes} (hp : p.length = L.toNat) :
    isFrame cfg (layout L p h l [x]) = true ↔ x = 0x03#8 ∧ crc16 cfg p = be16 h l := by
  have hL : byteAt (layout L p h l [x]) 1 = L := rfl
  rw [frameRecognition, hL, trailer_layout hp, decodeCandidate_layout hp]
  constructor
  · rintro ⟨-, ⟨q, c, hd, hv⟩, htrailer⟩
    cases hd
    exact ⟨htrailer, (validate_eq_true_iff cfg p _).mp hv⟩
  · rintro ⟨htrailer, hc⟩
    exact ⟨length_layout hp, ⟨p, be16 h l, rfl, (validate_eq_true_iff cfg p _).mpr hc⟩, htrailer⟩

/-- Settles O38: the loop accepts a complete candidate under the two checks that make its span a valid frame, and
otherwise resumes after its marker. -/
theorem candidatesAreJudgedByIsFrame : Obligations.CandidatesAreJudgedByIsFrame := by
  intro cfg L r hr
  obtain ⟨p, h, l, x, rest, hp, heq⟩ := exists_complete_layout hr
  rw [heq, take_layout hp, drop_layout hp]
  by_cases hx : x = 0x03#8 ∧ crc16 cfg p = be16 h l
  · rw [if_pos ((isFrame_span_iff cfg hp).mpr hx), frameOf_layout hp]
    obtain ⟨rfl, hc⟩ := hx
    exact extract_accepted cfg hp hc
  · rw [if_neg (mt (isFrame_span_iff cfg hp).mp hx), extract_rejected cfg hp hx, List.tail_eq_of_cons_eq heq]

end Sys2Proof.Proofs
end

section
/-! PROOFS. The reassembler family (42_reassembler.md): the results of the three commands, the loop label by label,
its passes, and what comes out of a stream however it is cut, fragmented or preceded by garbage. -/

namespace Sys2Proof.Proofs

open Sys2Proof.Machine Sys2Proof.Laws

/-! ## The results of the three commands (R140, R141, R142, R150) -/

/-- Settles O33, by the two outcomes of the capacity check. -/
theorem raAppendAllOrNothing : Obligations.RaAppendAllOrNothing :=
  fun _ _ _ => ⟨perform_raAppend_of_withinCapacity, perform_raAppend_of_not_withinCapacity⟩

/-- Every admitted capacity holds the longest frame (R41). -/
theorem withinCapacity_of_le (cap : RbCap) {n : Nat} (h : n ≤ 260) : WithinCapacity cap n :=
  (capHolds_iff_withinCapacity cap n).mp (capHolds_of_le_maxFrame cap n h)

/-- `RA.APPEND` of a chunk that fits, on the machine. -/
theorem exec_raAppend_of_withinCapacity {c : Bytes} {s : State}
    (h : WithinCapacity Config.wvfe.rbCap (s.rbuf.length + c.length)) : exec (.raAppend c) s =
      .next { s with rbuf := s.rbuf ++ c, responses := s.responses ++ [.ok .none] } :=
  exec_of_perform (perform_raAppend_of_withinCapacity h)

/-- Settles O34: 260 bytes are within every admitted capacity, and the check is R41's bound. -/
theorem raAppendResult : Obligations.RaAppendResult := by
  refine ⟨fun c s h => exec_raAppend_of_withinCapacity (withinCapacity_of_le _ h), fun c s => ?_,
    capHolds_iff_withinCapacity⟩
  split
  next h => exact exec_raAppend_of_withinCapacity ((capHolds_iff_withinCapacity _ _).mp h)
  next h =>
    exact exec_of_perform (perform_raAppend_of_not_withinCapacity (mt (capHolds_iff_withinCapacity _ _).mpr h))

/-- Settles O36, from `perform` on `RA.EXTRACT`. -/
theorem raExtractResult : Obligations.RaExtractResult :=
  fun s => exec_of_perform (perform_raExtract Config.wvfe s.toEngine)

@[simp] theorem perform_raReset (cfg : Config) (e : Engine) : perform cfg .raReset e = (e.setRbuf [], .ok .none) := rfl

/-- Settles O42, from `perform` on `RA.RESET`. -/
theorem raResetResult : Obligations.RaResetResult :=
  fun s => exec_of_perform (perform_raReset Config.wvfe s.toEngine)

/-- An appended chunk is read at the addresses after the old last byte (R140). -/
theorem memoryRead_append_length_add (b c : Bytes) (k : Nat) :
    Memory.read (b ++ c) (b.length + k) = Memory.read c k := by
  rw [Memory.read, Memory.read, List.getElem?_append_right (Nat.le_add_right _ _), Nat.add_sub_cancel_left]

/-- Outside the chunk's addresses an append changes nothing: below are the old bytes, above is no address. -/
theorem memoryRead_append_of_outside {b c : Bytes} {a : Nat} (h : ¬ (b.length ≤ a ∧ a < b.length + c.length)) :
    Memory.read (b ++ c) a = Memory.read b a := by
  unfold Memory.read
  by_cases ha : a < b.length
  · rw [List.getElem?_append_left ha]
  · rw [List.getElem?_eq_none (by rw [List.length_append]; omega), List.getElem?_eq_none (by omega)]

/-- `RA.APPEND` answers `OK` exactly when the chunk fits. -/
theorem status_raAppend_eq_ok_iff (cfg : Config) (c : Bytes) (e : Engine) :
    (perform cfg (.raAppend c) e).2.status = 0x00#8 ↔
      WithinCapacity cfg.rbCap (e.rbuf.length + c.length) := by
  by_cases h : WithinCapacity cfg.rbCap (e.rbuf.length + c.length)
  · rw [perform_raAppend_of_withinCapacity h]
    exact iff_of_true rfl h
  · rw [perform_raAppend_of_not_withinCapacity h]
    exact iff_of_false (by simp [Response.status, Error.code]) h

/-- Settles O55: the chunk at the end when it fits, the engine as it was when it does not. -/
theorem raAppendFrame : Obligations.RaAppendFrame := by
  refine ⟨fun c s t h => ?_, fun cfg c e hok k => ?_, fun cfg c e herr => ?_⟩
  · rw [toEngine_of_exec_eq_next h]
    refine ⟨perform_crcReg_of_ne _ _ (by simp) (by simp), input_of_exec_eq_next h, fun a ha => ?_⟩
    obtain hr | hr := perform_raAppend_rbuf Config.wvfe c s.toEngine
    · rw [hr]
    · rw [hr, memoryRead_append_of_outside ha]
  · rw [perform_raAppend_of_withinCapacity ((status_raAppend_eq_ok_iff cfg c e).mp hok)]
    exact memoryRead_append_length_add e.rbuf c k
  · rw [perform_raAppend_of_not_withinCapacity (mt (status_raAppend_eq_ok_iff cfg c e).mpr herr)]
    exact ⟨rfl, fun _ => rfl⟩

/-! ## The loop, label by label (R142) -/

/-- Step (b): bytes that are no marker are dropped. -/
theorem extract_append_of_no_marker (cfg : Config) {g : Bytes} (hg : (0x02#8 : Byte) ∉ g) (t : Bytes) :
    extract cfg (g ++ t) = extract cfg t := by
  induction g with
  | nil => rfl
  | cons b g ih =>
    obtain ⟨hb, hg⟩ := List.ne_and_not_mem_of_not_mem_cons hg
    rw [List.cons_append, extract_other cfg (Ne.symm hb), ih hg]

/-- Step (a): without a marker nothing is left. -/
theorem extract_of_no_marker (cfg : Config) {rbuf : Bytes} (h : (0x02#8 : Byte) ∉ rbuf) :
    extract cfg rbuf = ([], []) := by
  rw [← List.append_nil rbuf, extract_append_of_no_marker cfg h, extract_nil]

/-- A complete candidate as R142 writes it out is laid out. -/
theorem candidate_eq_layout (L h l x : Byte) (p rest : Bytes) :
    0x02#8 :: L :: (p ++ [h, l, x] ++ rest) = layout L p h l (x :: rest) := by
  simp [layout]

/-- Steps (e) and (g) on a candidate as R142 writes it out. -/
theorem extract_rejected_candidate (cfg : Config) {L h l x : Byte} {p rest : Bytes} (hp : p.length = L.toNat)
    (hx : ¬ (x = 0x03#8 ∧ crc16 cfg p = be16 h l)) :
    extract cfg (0x02#8 :: L :: (p ++ [h, l, x] ++ rest)) = extract cfg (L :: (p ++ [h, l, x] ++ rest)) := by
  have heq := candidate_eq_layout L h l x p rest
  rw [heq, extract_rejected cfg hp hx, List.tail_eq_of_cons_eq heq]

/-- Settles O37: the loop on each shape of the RawBuffer. -/
theorem extractFollowsTheLoop : Obligations.ExtractFollowsTheLoop := by
  refine ⟨perform_raExtract, fun cfg => ⟨fun _ => extract_of_no_marker cfg,
    fun g t hg => extract_append_of_no_marker cfg hg _, extract_marker_alone cfg, fun L r hlen => ?_,
    fun L h l x p rest hp hx => ?_, fun L h l p rest hp hc => ?_, fun L h l p rest hp hc => ?_⟩⟩
  · simp only [List.length_cons] at hlen
    exact extract_incomplete cfg (by omega)
  · exact extract_rejected_candidate cfg hp (mt And.left hx)
  · rw [candidate_eq_layout]
    exact extract_accepted cfg hp hc
  · exact extract_rejected_candidate cfg hp (mt And.right hc)

/-! ## Passes and frames (R149) -/

/-- The loop makes at most one pass more than the RawBuffer has bytes, however many it is allowed. -/
theorem extractPasses_le (cfg : Config) (fuel : Nat) (rbuf : Bytes) :
    extractPasses cfg fuel rbuf ≤ rbuf.length + 1 := by
  induction fuel generalizing rbuf with
  | zero => exact Nat.zero_le _
  | succ fuel ih =>
    have hshrinks := extractPass_shrinks cfg rbuf
    rw [extractPasses_succ]
    cases hpass : extractPass cfg rbuf with
    | stop rest => exact Nat.le_add_left 1 _
    | reject rest =>
      simp only [hpass] at hshrinks
      exact Nat.succ_le_succ ((ih rest).trans hshrinks)
    | accept f rest =>
      simp only [hpass] at hshrinks
      exact Nat.succ_le_succ ((ih rest).trans (by omega))

/-- Each frame takes at least 5 bytes. -/
theorem five_mul_frames_le (cfg : Config) (rbuf : Bytes) : 5 * (extract cfg rbuf).1.length ≤ rbuf.length := by
  induction rbuf using rbuf_induction with
  | empty => exact Nat.le_refl _
  | other b t hb ih =>
    rw [extract_other cfg hb]
    exact ih.trans (Nat.le_succ _)
  | alone => exact Nat.zero_le _
  | incomplete L r hr => rw [extract_incomplete cfg hr]; exact Nat.zero_le _
  | complete L p h l x rest hp ihRest ihResync =>
    by_cases hx : x = 0x03#8 ∧ crc16 cfg p = be16 h l
    · obtain ⟨rfl, hc⟩ := hx
      rw [extract_accepted cfg hp hc, length_layout hp, List.length_cons, List.length_cons]
      omega
    · rw [extract_rejected cfg hp hx]
      exact ihResync.trans (Nat.le_succ _)

/-- Settles O41, from the law that every pass that does not return shrinks the RawBuffer. -/
theorem extractTerminates : Obligations.ExtractTerminates := by
  intro cfg rbuf
  have hshrinks := extractPass_shrinks cfg rbuf
  refine ⟨fun rest hpass => ?_, fun f rest hpass => ?_, fun fuel => extractPasses_le cfg fuel rbuf,
    fun fuel hfuel => extractLoop_enough cfg hfuel (Nat.lt_succ_self _), ?_⟩
  · simpa only [hpass] using hshrinks
  · simpa only [hpass] using hshrinks
  · have := five_mul_frames_le cfg rbuf
    omega

/-! ## Quiescent buffers (R24, R151) -/

/-- The loop returns at once on a quiescent RawBuffer. -/
theorem extract_of_quiescent (cfg : Config) {rbuf : Bytes} (h : quiescent rbuf = true) :
    extract cfg rbuf = ([], rbuf) := by
  obtain rfl | rfl | ⟨L, r, rfl, hlen⟩ := (quiescent_iff rbuf).mp h
  · exact extract_nil cfg
  · exact extract_marker_alone cfg
  · simp only [List.length_cons] at hlen
    exact extract_incomplete cfg (by omega)

/-- Settles O39: what the loop leaves is quiescent, so the next one returns at once. -/
theorem extractLeavesQuiescent : Obligations.ExtractLeavesQuiescent := by
  intro s t h
  have hq : quiescent t.rbuf = true := by
    rw [toEngine_of_exec_eq_next h]
    exact quiescent_extract Config.wvfe s.rbuf
  refine ⟨hq, quiescent_length_le hq, ?_⟩
  rw [raExtractResult t, extract_of_quiescent _ hq]

/-- The first bytes of a candidate, as long as its length byte asks for more, are quiescent. -/
theorem quiescent_of_candidate_part {L : Byte} {a b r : Bytes} (heq : a ++ b = 0x02#8 :: L :: r)
    (hshort : a.length < L.toNat + 5) : quiescent a = true := by
  match a, heq with
  | [], _ => exact quiescent_nil
  | [_], heq =>
    obtain ⟨rfl, -⟩ := List.cons.inj heq
    rfl
  | _ :: _ :: r', heq =>
    simp only [List.cons_append, List.cons.injEq] at heq
    obtain ⟨rfl, rfl, -⟩ := heq
    exact (quiescent_iff _).mpr (.inr (.inr ⟨_, r', rfl, hshort⟩))

/-- The first bytes of a quiescent RawBuffer are quiescent too. -/
theorem quiescent_of_append {a b : Bytes} (h : quiescent (a ++ b) = true) : quiescent a = true := by
  obtain hnil | hmarker | ⟨L, r, heq, hlen⟩ := (quiescent_iff _).mp h
  · obtain ⟨rfl, -⟩ := List.append_eq_nil_iff.mp hnil
    exact quiescent_nil
  · obtain ⟨rfl, -⟩ | ⟨rfl, -⟩ := List.append_eq_singleton_iff.mp hmarker
    · exact quiescent_nil
    · rfl
  · rw [List.length_append] at hlen
    exact quiescent_of_candidate_part heq (by omega)

/-! ## Valid frames at the front (R148, R155) -/

/-- A valid frame at the front is returned and dropped whole, whatever follows. -/
theorem extract_isFrame_append {cfg : Config} {f : Bytes} (hf : isFrame cfg f = true) (t : Bytes) :
    extract cfg (f ++ t) = (frameOf f :: (extract cfg t).1, (extract cfg t).2) := by
  obtain ⟨L, h, l, p, hp, hc, rfl⟩ := (isFrame_iff_layout cfg f).mp hf
  rw [← layout_eq_span_append, extract_accepted cfg hp hc, frameOf_layout hp]

/-- The three bytes that make the span of a marker, its length byte and the payload `p` a valid frame. -/
def frameTail (cfg : Config) (p : Bytes) : Bytes :=
  [hi (crc16 cfg p), lo (crc16 cfg p), 0x03#8]

/-- Of all tails of three bytes, exactly that one makes a valid frame: both CRC bytes and the trailer are fixed. -/
theorem isFrame_append_tail_iff (cfg : Config) {L : Byte} {p tail : Bytes} (hp : p.length = L.toNat) :
    tail.length = 3 ∧ isFrame cfg ([0x02#8, L] ++ p ++ tail) = true ↔ tail = frameTail cfg p := by
  constructor
  · rintro ⟨hlen, hf⟩
    obtain ⟨h, l, x, rfl⟩ := List.length_eq_three.mp hlen
    obtain ⟨rfl, hc⟩ := (isFrame_span_iff cfg hp).mp hf
    rw [frameTail, hc, hi_be16, lo_be16]
  · rintro rfl
    exact ⟨rfl, (isFrame_span_iff cfg hp).mpr ⟨rfl, (be16_hi_lo _).symm⟩⟩

/-- Settles O47: acceptance at the front, and the one tail. -/
theorem falseAcceptanceIsPossible : Obligations.FalseAcceptanceIsPossible :=
  ⟨fun _ _ t hf => extract_isFrame_append hf t, fun cfg _ p hp =>
    ⟨frameTail cfg p, (isFrame_append_tail_iff cfg hp).mpr rfl, fun _ => (isFrame_append_tail_iff cfg hp).mp⟩⟩

/-- The CRC a valid frame carries is its payload's. -/
theorem expectedFrame_eq_frameOf {cfg : Config} {f : Bytes} (hf : isFrame cfg f = true) :
    expectedFrame cfg f = frameOf f := by
  obtain ⟨L, h, l, p, hp, hc, rfl⟩ := (isFrame_iff_layout cfg f).mp hf
  rw [expectedFrame, frameOf_layout hp, hc]

/-- Valid frames one after the other come out one by one (R153). -/
theorem extract_flatten_of_isFrame {cfg : Config} {fs : List Bytes} (hfs : ∀ f ∈ fs, isFrame cfg f = true) :
    extract cfg fs.flatten = (fs.map (expectedFrame cfg), []) := by
  induction fs with
  | nil => exact extract_nil cfg
  | cons f fs ih =>
    obtain ⟨hf, hfs⟩ := List.forall_mem_cons.mp hfs
    rw [List.flatten_cons, extract_isFrame_append hf, ih hfs, List.map_cons, expectedFrame_eq_frameOf hf]

/-- Settles O44: the chunk fits, and the loop takes the frames off the front one by one. -/
theorem backToBackFramesComeOutInOrder : Obligations.BackToBackFramesComeOutInOrder := by
  rintro cfg fs ⟨crcReg, rbuf⟩ hfs (rfl : rbuf = []) hfits
  have hfeed := (raFeedRunsBothCommands cfg fs.flatten ⟨crcReg, []⟩).1 (by simpa using hfits)
  rw [List.nil_append, extract_flatten_of_isFrame hfs] at hfeed
  exact hfeed

/-! ## Cutting the stream (R144, R152) -/

/-- Settles O46, by induction the way the loop goes through the first part: every pass that is made on it is made on
the whole stream too, and where it stops the second part is still to come. -/
theorem cuttingTheStreamChangesNothing : Obligations.CuttingTheStreamChangesNothing := by
  intro cfg a b
  induction a using rbuf_induction with
  | empty => rfl
  | other c t hc ih => rw [List.cons_append, extract_other cfg hc, extract_other cfg hc, ih]
  | alone => rfl
  | incomplete L r hr => rw [extract_incomplete cfg hr]; rfl
  | complete L p h l x rest hp ihRest ihResync =>
    have happend : layout L p h l (x :: rest) ++ b = layout L p h l (x :: (rest ++ b)) := by simp [layout]
    rw [happend]
    by_cases hx : x = 0x03#8 ∧ crc16 cfg p = be16 h l
    · obtain ⟨rfl, hc⟩ := hx
      rw [extract_accepted cfg hp hc, extract_accepted cfg hp hc, ihRest, List.cons_append]
    · rw [extract_rejected cfg hp hx, extract_rejected cfg hp hx, ← ihResync, ← List.tail_eq_of_cons_eq happend]
      rfl

/-! ## Feeding a frame in chunks (R152) -/

/-- The first bytes of a valid frame are an incomplete candidate while one is missing. -/
theorem quiescent_of_isFrame_append {cfg : Config} {a b : Bytes} (hf : isFrame cfg (a ++ b) = true) (hb : b ≠ []) :
    quiescent a = true := by
  obtain ⟨L, h, l, p, hp, -, heq⟩ := (isFrame_iff_layout cfg _).mp hf
  have hlen := congrArg List.length heq
  rw [length_layout hp, List.length_append, List.length_singleton] at hlen
  have hpos := List.length_pos_of_ne_nil hb
  exact quiescent_of_candidate_part heq (by omega)

/-- A valid frame has at most 260 bytes. -/
theorem length_le_of_isFrame {cfg : Config} {f : Bytes} (hf : isFrame cfg f = true) : f.length ≤ 260 := by
  obtain ⟨L, h, l, p, hp, -, rfl⟩ := (isFrame_iff_layout cfg f).mp hf
  have hL := L.isLt
  rw [length_layout hp, List.length_singleton]
  omega

/-- Chunks that together leave an incomplete candidate all wait in the RawBuffer, and no frame comes out. -/
theorem performAll_raFeeds_of_quiescent (cfg : Config) (cs : List Bytes) (e : Engine)
    (h : quiescent (e.rbuf ++ cs.flatten) = true) :
    performAll cfg (cs.flatMap raFeed) e =
      ({ e with rbuf := e.rbuf ++ cs.flatten }, cs.flatMap (fun _ => [.ok .none, .ok (.frames [])])) := by
  induction cs generalizing e with
  | nil => simp [performAll_nil]
  | cons c cs ih =>
    rw [List.flatten_cons, ← List.append_assoc] at h
    have hq := quiescent_of_append h
    have hfits : e.rbuf.length + c.length ≤ 260 := by
      have := quiescent_length_le hq
      rw [List.length_append] at this
      omega
    have hfeed := (raFeedRunsBothCommands cfg c e).1 (withinCapacity_of_le _ hfits)
    rw [extract_of_quiescent cfg hq] at hfeed
    rw [List.flatMap_cons, performAll_append, hfeed, ih _ h, List.flatten_cons, ← List.append_assoc,
      List.flatMap_cons]

/-- The chunk that completes a valid frame brings out that frame and empties the RawBuffer. -/
theorem performAll_raFeed_of_isFrame {cfg : Config} {c : Bytes} {e : Engine}
    (hf : isFrame cfg (e.rbuf ++ c) = true) : performAll cfg (raFeed c) e =
      ({ e with rbuf := [] }, [.ok .none, .ok (.frames [expectedFrame cfg (e.rbuf ++ c)])]) := by
  have hfits : e.rbuf.length + c.length ≤ 260 := List.length_append ▸ length_le_of_isFrame hf
  have hframe := extract_isFrame_append hf []
  rw [List.append_nil, extract_nil, ← expectedFrame_eq_frameOf hf] at hframe
  rw [(raFeedRunsBothCommands cfg c e).1 (withinCapacity_of_le _ hfits), hframe]

/-- Settles O43: every part of the frame waits, the completing chunk makes the loop accept it, and empty chunks leave
the empty RawBuffer as it is. -/
theorem fragmentedFrameComesOutOnce : Obligations.FragmentedFrameComesOutOnce := by
  rintro cfg f c cs k ⟨crcReg, rbuf⟩ hf rfl hc (rfl : rbuf = [])
  have hq : quiescent cs.flatten = true := quiescent_of_isFrame_append hf hc
  refine ⟨?_, ?_⟩
  · rintro cs1 cs2 rfl
    rw [List.flatten_append] at hq
    exact performAll_raFeeds_of_quiescent cfg cs1 ⟨crcReg, []⟩ (quiescent_of_append hq)
  · have hparts := performAll_raFeeds_of_quiescent cfg cs ⟨crcReg, []⟩ hq
    have hlast := performAll_raFeed_of_isFrame (c := c) (e := ⟨crcReg, cs.flatten⟩) hf
    have hempty := performAll_raFeeds_of_quiescent cfg (List.replicate k []) ⟨crcReg, []⟩
      (by rw [List.flatten_replicate_nil]; exact quiescent_nil)
    rw [List.flatten_replicate_nil] at hempty
    rw [List.flatMap_append, List.flatMap_append, performAll_append, performAll_append, hparts, List.flatMap_singleton,
      List.nil_append, hlast, hempty]
    rfl

/-! ## Garbage before a frame (R154) -/

theorem slice_cons_succ (b : Byte) (s : Bytes) (m n : Nat) : slice (b :: s) (m + 1) (n + 1) = slice s m n := rfl

/-- What holds of the spurious markers holds of those after the first byte. -/
theorem spuriousMarkersResolved_tail {cfg : Config} {b : Byte} {g rest : Bytes}
    (h : SpuriousMarkersResolved cfg (b :: g) rest) : SpuriousMarkersResolved cfg g rest := by
  intro j hj hm
  obtain ⟨hlength, hspan, hno⟩ := h (j + 1) (Nat.succ_lt_succ hj) hm
  have hL : byteAt (b :: g ++ rest) (j + 1 + 1) = byteAt (g ++ rest) (j + 1) := rfl
  rw [hL] at hspan hno
  rw [List.cons_append, List.length_cons] at hlength hspan
  rw [show j + 1 + (byteAt (g ++ rest) (j + 1)).toNat + 5 = j + (byteAt (g ++ rest) (j + 1)).toNat + 5 + 1 by omega,
    List.cons_append, slice_cons_succ] at hno
  exact ⟨by omega, by omega, hno⟩

/-- A complete candidate that is no valid frame loses its marker only (R146). -/
theorem extract_resync {cfg : Config} {t : Bytes} (hlength : 1 < (0x02#8 :: t).length)
    (hspan : (byteAt (0x02#8 :: t) 1).toNat + 5 ≤ (0x02#8 :: t).length)
    (hno : isFrame cfg (slice (0x02#8 :: t) 0 ((byteAt (0x02#8 :: t) 1).toNat + 5)) = false) :
    extract cfg (0x02#8 :: t) = extract cfg t := by
  match t, hlength with
  | L :: r, _ =>
    have hL : byteAt (0x02#8 :: L :: r) 1 = L := rfl
    rw [hL] at hspan hno
    simp only [List.length_cons] at hspan
    rw [candidatesAreJudgedByIsFrame cfg L r (by omega), if_neg]
    exact ne_true_of_eq_false hno

/-- Garbage whose markers are all resolved is passed over byte by byte. -/
theorem extract_append_of_resolved {cfg : Config} {g rest : Bytes} (h : SpuriousMarkersResolved cfg g rest) :
    extract cfg (g ++ rest) = extract cfg rest := by
  induction g with
  | nil => rfl
  | cons b g ih =>
    rw [← ih (spuriousMarkersResolved_tail h), List.cons_append]
    by_cases hb : b = 0x02#8
    · subst hb
      obtain ⟨hlength, hspan, hno⟩ := h 0 (Nat.succ_pos _) rfl
      rw [Nat.zero_add] at hlength hspan hno
      exact extract_resync hlength hspan hno
    · exact extract_other cfg hb _

/-- The real frame is the first one out. -/
theorem head?_frames_of_resolved {cfg : Config} {g f t : Bytes} (hf : isFrame cfg f = true)
    (h : SpuriousMarkersResolved cfg g (f ++ t)) : (extract cfg (g ++ f ++ t)).1.head? = some (frameOf f) := by
  rw [List.append_assoc, extract_append_of_resolved h, extract_isFrame_append hf, List.head?_cons]

/-- The real frame is the first one out of two extracts when the later one finds the markers resolved: the cut between
them changes nothing. -/
theorem head?_frames_of_resolved_later {cfg : Config} {g f t u : Bytes} (hf : isFrame cfg f = true)
    (h : SpuriousMarkersResolved cfg g (f ++ t ++ u)) :
    ((extract cfg (g ++ f ++ t)).1 ++ (extract cfg ((extract cfg (g ++ f ++ t)).2 ++ u)).1).head? =
      some (frameOf f) := by
  rw [List.append_assoc] at h
  have hwhole := head?_frames_of_resolved hf h
  rw [← List.append_assoc, cuttingTheStreamChangesNothing] at hwhole
  exact hwhole

/-- 260 bytes from a marker hold its span, whatever its length byte. -/
theorem spuriousMarkersResolved_of_260 {cfg : Config} {g rest : Bytes}
    (h : ∀ j, j < g.length → byteAt g j = 0x02#8 → j + 260 ≤ (g ++ rest).length ∧
      isFrame cfg (slice (g ++ rest) j (j + (byteAt (g ++ rest) (j + 1)).toNat + 5)) = false) :
    SpuriousMarkersResolved cfg g rest := by
  intro j hj hm
  obtain ⟨hlength, hno⟩ := h j hj hm
  have hL := (byteAt (g ++ rest) (j + 1)).isLt
  exact ⟨by omega, by omega, hno⟩

/-- Settles O45: resolved markers are passed over, an earlier extract changes nothing, and 260 bytes resolve a
marker. -/
theorem garbageDoesNotHideAFrame : Obligations.GarbageDoesNotHideAFrame := by
  refine ⟨fun _ _ _ _ => head?_frames_of_resolved, fun _ _ _ _ _ => head?_frames_of_resolved_later,
    fun cfg g f t u hf h => head?_frames_of_resolved_later hf (spuriousMarkersResolved_of_260 ?_),
    fun cfg rbuf => quiescent_length_le (quiescent_extract cfg rbuf)⟩
  simpa only [List.append_assoc] using h

end Sys2Proof.Proofs
end

section
/-! PROOFS. The exceptions family (60_exceptions.md): what a step does with any command at all, which error each one
raises, and the steps that take no command. -/

namespace Sys2Proof.Proofs

open Sys2Proof.Machine Sys2Proof.Laws

/-! ## The step without a command (R184, R200) -/

theorem step_of_input_eq_nil {s : State} (hin : s.input = []) : step s = .next s := by
  simp only [step, (takeInput_eq_none_iff s).mpr hin, idle]

/-- Settles O9: with nothing to take the machine is idle, and a block reset writes the engine only. -/
theorem portWithoutACommand : Obligations.PortWithoutACommand :=
  ⟨fun _ => step_of_input_eq_nil, fun _ _ => step_of_blockReset⟩

/-! ## The step on any command (R171, R176) -/

/-- Whichever way a command fails to decode, it is answered with its own opcode byte (R71, R171). -/
theorem illegalCommandError_of_decode {c : Command} {err : DecodeError} (h : decode c = .error err) :
    illegalCommandError err = .illegalCommand c.opcode := by
  unfold decode at h
  split at h
  · cases h
    rfl
  · split at h
    · cases h
      rfl
    · cases h

/-- A step on an ill-formed command refuses it and keeps the engine (R171). -/
theorem step_of_not_wellFormed {s : State} {c : Command} {rest : List PortInput}
    (hin : s.input = .command c :: rest) (hw : c.wellFormed = false) :
    step s = .next ⟨s.toEngine, rest, s.responses ++ [.error (.illegalCommand c.opcode)]⟩ := by
  cases hdec : decode c with
  | error err => rw [step_of_decode_error hin hdec, illegalCommandError_of_decode hdec]
  | ok i =>
    have hwell : c.wellFormed = true := (wellFormedCommandsDecode c).mpr ⟨i, hdec⟩
    rw [hw] at hwell
    cases hwell

/-- Settles O7: an ill-formed command does not decode, and the answer names its opcode. -/
theorem illegalCommandsAreAnswered : Obligations.IllegalCommandsAreAnswered :=
  fun _ _ _ => step_of_not_wellFormed

/-- Every command is an instruction's encoding or ill-formed. -/
theorem command_cases (c : Command) : (∃ i, c = encode i) ∨ c.wellFormed = false := by
  cases hw : c.wellFormed with
  | false => exact .inr rfl
  | true =>
    obtain ⟨i, hdec⟩ := (wellFormedCommandsDecode c).mp hw
    exact .inl ⟨i, eq_encode_of_decode hdec⟩

/-- Settles O10: a command is performed or refused, with one response either way. -/
theorem everyCommandIsTotal : Obligations.EveryCommandIsTotal := by
  refine ⟨fun i s => ⟨_, _, (exec_eq_next_iff i s _).mpr rfl, rfl, rfl⟩, fun s c rest hin => ?_⟩
  obtain ⟨i, rfl⟩ | hw := command_cases c
  · exact ⟨_, _, step_of_encode hin, rfl, rfl⟩
  · exact ⟨_, _, step_of_not_wellFormed hin hw, rfl, rfl⟩

/-- The engine and the response after a step on a command: those of the instruction, or the refusal's. -/
theorem step_command_cases {s t : State} {c : Command} {rest : List PortInput} {r : Response}
    (hin : s.input = .command c :: rest) (h : step s = .next t) (hr : t.responses = s.responses ++ [r]) :
    t.input = rest ∧
      ((∃ i, c = encode i ∧ perform Config.wvfe i s.toEngine = (t.toEngine, r)) ∨
        (c.wellFormed = false ∧ t.toEngine = s.toEngine ∧ r = .error (.illegalCommand c.opcode))) := by
  obtain ⟨i, rfl⟩ | hw := command_cases c
  · rw [step_of_encode hin] at h
    cases h
    obtain rfl := List.singleton_injective (List.append_cancel_left hr)
    exact ⟨rfl, .inl ⟨i, rfl, rfl⟩⟩
  · rw [step_of_not_wellFormed hin hw] at h
    cases h
    obtain rfl := List.singleton_injective (List.append_cancel_left hr)
    exact ⟨rfl, .inr ⟨hw, rfl, rfl⟩⟩

/-- The response to an encoded instruction is the one `perform` gives. -/
theorem response_of_encode {s t : State} {i : Instr} {rest : List PortInput} {r : Response}
    (hin : s.input = .command (encode i) :: rest) (h : step s = .next t) (hr : t.responses = s.responses ++ [r]) :
    r = (perform Config.wvfe i s.toEngine).2 := by
  rw [step_of_encode hin] at h
  cases h
  exact (List.singleton_injective (List.append_cancel_left hr)).symm

/-! ## Which command raises which error (R170, R177) -/

theorem encode_injective : Function.Injective encode := fun i j h => by
  have hdec : decode (encode i) = .ok j := h ▸ decode_encode j
  rw [decode_encode] at hdec
  cases hdec
  rfl

/-- The condition under which a command raises an error, with the information value it then has (R170, R177). -/
def Raises (e : Engine) (c : Command) : Error → Prop
  | .unsupportedVariant => ∃ p, c = encode (.frmEncode .large p)
  | .lengthOverflow n => ∃ p, c = encode (.frmEncode .small p) ∧ 255 < p.length ∧ n = p.length
  | .malformedCandidate n => ∃ cand, c = encode (.frmDecode cand) ∧ decodeCandidate cand = none ∧ n = cand.length
  | .bufferOverflow n => ∃ k, c = encode (.raAppend k) ∧
      ¬ WithinCapacity Config.wvfe.rbCap (e.rbuf.length + k.length) ∧ n = e.rbuf.length + k.length
  | .illegalCommand op => c.wellFormed = false ∧ op = c.opcode

/-- An instruction answers an error under the error's condition only. -/
theorem raises_of_perform {i : Instr} {e e' : Engine} {err : Error}
    (h : perform Config.wvfe i e = (e', .error err)) : Raises e (encode i) err := by
  cases i with
  | frmEncode m p =>
    cases m with
    | large =>
      cases h
      exact ⟨p, rfl⟩
    | small =>
      by_cases hp : p.length ≤ 255
      · rw [perform_frmEncode_small_of_le _ _ hp] at h
        cases h
      · have hgt := Nat.lt_of_not_le hp
        rw [perform_frmEncode_small_of_gt _ _ hgt] at h
        cases h
        exact ⟨p, rfl, hgt, rfl⟩
  | frmDecode cand =>
    cases hd : decodeCandidate cand with
    | some pc =>
      rw [perform_frmDecode_of_some _ _ hd] at h
      cases h
    | none =>
      rw [perform_frmDecode_of_none _ _ hd] at h
      cases h
      exact ⟨cand, rfl, hd, rfl⟩
  | raAppend k =>
    by_cases hfits : WithinCapacity Config.wvfe.rbCap (e.rbuf.length + k.length)
    · rw [perform_raAppend_of_withinCapacity hfits] at h
      cases h
    · rw [perform_raAppend_of_not_withinCapacity hfits] at h
      cases h
      exact ⟨k, rfl, hfits, rfl⟩
  | crcInit | crcUpdate | crcRead | crcCompute | frmValidate | raExtract | raReset => cases h

/-- Under an error's condition the instruction answers it, and the engine is as it was (R174). -/
theorem perform_of_raises {i : Instr} {e : Engine} {err : Error} (h : Raises e (encode i) err) :
    perform Config.wvfe i e = (e, .error err) := by
  cases err with
  | unsupportedVariant =>
    obtain ⟨p, hi⟩ := h
    rw [encode_injective hi, perform_frmEncode_large]
  | lengthOverflow n =>
    obtain ⟨p, hi, hp, rfl⟩ := h
    rw [encode_injective hi, perform_frmEncode_small_of_gt _ _ hp]
  | malformedCandidate n =>
    obtain ⟨cand, hi, hd, rfl⟩ := h
    rw [encode_injective hi, perform_frmDecode_of_none _ _ hd]
  | bufferOverflow n =>
    obtain ⟨k, hi, hfits, rfl⟩ := h
    rw [encode_injective hi, perform_raAppend_of_not_withinCapacity hfits]
  | illegalCommand op =>
    obtain ⟨hw, -⟩ := h
    rw [wellFormed_encode] at hw
    cases hw

/-- An ill-formed command raises `IllegalCommand` and nothing else (R177). -/
theorem eq_illegalCommand_of_raises {e : Engine} {c : Command} {err : Error} (hw : c.wellFormed = false)
    (h : Raises e c err) : err = .illegalCommand c.opcode := by
  have hne (i : Instr) : c ≠ encode i := by
    rintro rfl
    rw [wellFormed_encode] at hw
    cases hw
  cases err with
  | illegalCommand op =>
    obtain ⟨-, rfl⟩ := h
    rfl
  | unsupportedVariant =>
    obtain ⟨p, hc⟩ := h
    exact absurd hc (hne _)
  | lengthOverflow | malformedCandidate | bufferOverflow =>
    obtain ⟨p, hc, -⟩ := h
    exact absurd hc (hne _)

/-- A step on a command answers an error exactly under its condition. -/
theorem response_eq_error_iff {s t : State} {c : Command} {rest : List PortInput} {r : Response}
    (hin : s.input = .command c :: rest) (h : step s = .next t) (hr : t.responses = s.responses ++ [r])
    (err : Error) : r = .error err ↔ Raises s.toEngine c err := by
  obtain ⟨-, ⟨i, rfl, hperf⟩ | ⟨hw, -, rfl⟩⟩ := step_command_cases hin h hr
  · refine ⟨?_, fun hraises => ?_⟩
    · rintro rfl
      exact raises_of_perform hperf
    · rw [perform_of_raises hraises] at hperf
      exact (congrArg Prod.snd hperf).symm
  · refine ⟨?_, fun hraises => ?_⟩
    · rintro ⟨⟩
      exact ⟨hw, rfl⟩
    · rw [eq_illegalCommand_of_raises hw hraises]

/-- A response whose status is not `OK` is an error. -/
theorem exists_error_of_status_ne {r : Response} (h : r.status ≠ 0x00#8) : ∃ err, r = .error err := by
  cases r with
  | ok res => exact absurd rfl h
  | error err => exact ⟨err, rfl⟩

/-- Settles O11: an error is an instruction's, which then keeps the engine, or a refusal. -/
theorem errorsChangeNoState : Obligations.ErrorsChangeNoState := by
  intro s t c rest r hin h hr hstatus
  obtain ⟨err, rfl⟩ := exists_error_of_status_ne hstatus
  obtain ⟨hrest, ⟨i, -, hperf⟩ | ⟨-, he, -⟩⟩ := step_command_cases hin h hr
  · have hsame := perform_of_raises (raises_of_perform hperf)
    rw [hperf] at hsame
    have he : t.toEngine = s.toEngine := congrArg Prod.fst hsame
    exact ⟨congrArg Engine.crcReg he, congrArg Engine.rbuf he, hrest⟩
  · exact ⟨congrArg Engine.crcReg he, congrArg Engine.rbuf he, hrest⟩

/-- Each error has its own status code. -/
theorem status_eq_iff (r : Response) :
    (r.status = 0x01#8 ↔ r = .error .unsupportedVariant) ∧
    (r.status = 0x02#8 ↔ ∃ n, r = .error (.lengthOverflow n)) ∧
    (r.status = 0x03#8 ↔ ∃ n, r = .error (.malformedCandidate n)) ∧
    (r.status = 0x04#8 ↔ ∃ n, r = .error (.bufferOverflow n)) ∧
    (r.status = 0x05#8 ↔ ∃ op, r = .error (.illegalCommand op)) := by
  cases r with
  | ok res => simp [Response.status]
  | error err => cases err <;> simp [Response.status, Error.code]

theorem status_toNat_le (r : Response) : r.status.toNat ≤ 0x05 := by
  cases r with
  | ok res => exact Nat.zero_le _
  | error err => cases err <;> simp [Response.status, Error.code]

/-- The malformed candidates, as the error's condition reads their bytes (R122). -/
theorem decodeCandidate_eq_none_iff_byteAt (cand : Bytes) : decodeCandidate cand = none ↔
    cand.length < 2 ∨ byteAt cand 0 ≠ 0x02#8 ∨ cand.length < (byteAt cand 1).toNat + 4 := by
  rw [decodeCandidate_eq_none_iff]
  match cand with
  | [] | [_] => simp
  | b :: L :: r => simp [byteAt]

/-- What `RA.APPEND` answers: no result, or the length the chunk would have made. -/
theorem response_raAppend_cases (cfg : Config) (k : Bytes) (e : Engine) :
    (perform cfg (.raAppend k) e).2 = .ok .none ∨
      (perform cfg (.raAppend k) e).2 = .error (.bufferOverflow (e.rbuf.length + k.length)) := by
  by_cases hfits : WithinCapacity cfg.rbCap (e.rbuf.length + k.length)
  · exact .inl (by rw [perform_raAppend_of_withinCapacity hfits])
  · exact .inr (by rw [perform_raAppend_of_not_withinCapacity hfits])

/-- Settles O12: a status stands for its error, and an error for its condition. -/
theorem errorConditions : Obligations.ErrorConditions := by
  intro s t c rest r hin h hr
  have hraises := response_eq_error_iff hin h hr
  obtain ⟨h1, h2, h3, h4, h5⟩ := status_eq_iff r
  refine ⟨?_, ?_, ?_, ?_, ?_, status_toNat_le r, ?_, ?_, ?_, ?_, ?_⟩
  · rw [h1, hraises, Raises]
  · simp [h2, hraises, Raises]
  · simp [h3, hraises, Raises, decodeCandidate_eq_none_iff_byteAt]
  · simp [h4, hraises, Raises]
  · simp [h5, hraises, Raises]
  · intro hstatus
    rw [h1.mp hstatus]
    rfl
  · rintro p rfl hstatus
    obtain ⟨n, rfl⟩ := h2.mp hstatus
    obtain ⟨q, hq, -, rfl⟩ := (hraises _).mp rfl
    cases encode_injective hq
    rfl
  · rintro p rfl hstatus
    obtain ⟨n, rfl⟩ := h3.mp hstatus
    obtain ⟨q, hq, -, rfl⟩ := (hraises _).mp rfl
    cases encode_injective hq
    rfl
  · rintro p rfl
    rw [response_of_encode hin h hr]
    obtain hok | herr := response_raAppend_cases Config.wvfe p s.toEngine
    · exact .inl hok
    · rw [herr]
      exact .inr ⟨rfl, rfl⟩
  · intro hstatus
    obtain ⟨op, rfl⟩ := h5.mp hstatus
    obtain ⟨-, rfl⟩ := (hraises _).mp rfl
    rfl

end Sys2Proof.Proofs
end

section
/-! PROOFS. The reset and hazards family (70_reset_and_hazards.md): what a block reset leaves, the first stream after
it, and the two hazards of the RawBuffer, overflow and a spurious marker. -/

namespace Sys2Proof.Proofs

open Sys2Proof.Machine Sys2Proof.Laws

/-! ## Reset (R200, R203) -/

/-- Settles O8: a step on a block reset leaves the reset engine, whose `rbuf` is empty, and the rest of the input. -/
theorem blockResetLeaves : Obligations.BlockResetLeaves :=
  ⟨rfl, rfl, quiescent_nil, fun _ _ hin => ⟨_, step_of_blockReset hin, rfl, rfl, quiescent_nil, rfl⟩⟩

/-- A run of `CRC.UPDATE`s and `CRC.READ` answers last with the fold from the register's old value (R104, R105). -/
theorem getLast?_crcUpdates_crcRead (cfg : Config) (bs : Bytes) (e : Engine) :
    (performAll cfg (bs.map .crcUpdate ++ [.crcRead]) e).2.getLast? =
      some (.ok (.word16 (crcFold e.crcReg bs ^^^ cfg.crcXorOut))) := by
  rw [performAll_append, performAll_crcUpdates, performAll_cons, performAll_nil, perform_crcRead,
    List.getLast?_concat, Engine.setCrcReg_crcReg]

/-- Settles O22: the register is `CRC_INIT` at reset, so the stream's fold is that of `crc16`. -/
theorem firstStreamAfterReset : Obligations.FirstStreamAfterReset :=
  fun cfg s => getLast?_crcUpdates_crcRead cfg s (Engine.reset cfg)

/-! ## Overflow (R141, R206) -/

theorem withinCapacity_mono {cap : RbCap} {m n : Nat} (hle : m ≤ n) (h : WithinCapacity cap n) :
    WithinCapacity cap m :=
  (capHolds_iff_withinCapacity cap m).mp (capHolds_mono cap hle ((capHolds_iff_withinCapacity cap n).mpr h))

/-- A chunk that leaves room for 259 bytes fits behind every quiescent RawBuffer, and `RA.EXTRACT` then leaves a
quiescent one again. -/
theorem performAll_raFeed_of_quiescent {cfg : Config} {c : Bytes} {e : Engine} (hq : quiescent e.rbuf = true)
    (hc : WithinCapacity cfg.rbCap (c.length + 259)) :
    quiescent (performAll cfg (raFeed c) e).1.rbuf = true ∧
      ∀ r ∈ (performAll cfg (raFeed c) e).2, r.status = 0x00#8 := by
  have hfits : WithinCapacity cfg.rbCap (e.rbuf.length + c.length) :=
    withinCapacity_mono (by have := quiescent_length_le hq; omega) hc
  rw [(raFeedRunsBothCommands cfg c e).1 hfits]
  exact ⟨quiescent_extract cfg _, by simp [Response.status]⟩

/-- Settles O35, by induction on the chunks: each one is fed to a quiescent RawBuffer. -/
theorem fedChunksNeverOverflow : Obligations.FedChunksNeverOverflow := by
  intro cfg cs
  induction cs with
  | nil => simp [performAll_nil]
  | cons c cs ih =>
    intro e hq hcs
    obtain ⟨hc, hcs⟩ := List.forall_mem_cons.mp hcs
    obtain ⟨hq', hok⟩ := performAll_raFeed_of_quiescent hq hc
    rw [List.flatMap_cons, performAll_append]
    exact List.forall_mem_append.mpr ⟨hok, ih _ hq' hcs⟩

/-! ## A spurious marker (R205) -/

/-- Settles O48: an incomplete candidate stops the loop, what the loop leaves is at most 259 bytes, and `RA.RESET`
empties the RawBuffer. -/
theorem spuriousMarkerHoldsBack : Obligations.SpuriousMarkerHoldsBack := by
  refine ⟨fun cfg L r c hshort => ?_, fun cfg rbuf hlen => ?_, perform_raReset⟩
  · rw [perform_raExtract, extract_incomplete cfg (by omega)]
    rfl
  · exact (quiescent_length_le (quiescent_extract cfg rbuf)).trans_lt hlen

end Sys2Proof.Proofs
end
